-- ==== Sys2Proof/Word.lean ====
section
/-! DEFINITION. The word types of the machine (spec/00_scope.md R4, section 5) and how a byte reads as an integer. -/

namespace Sys2Proof

/-- The unit of storage: every register, memory cell and instruction byte is 8 bits (R4 `XLEN`, R6). -/
abbrev Byte := BitVec 8

/-- A 4-bit field: the opcode, the operand, a register number, a sub-index (R60, R67). -/
abbrev Nibble := BitVec 4

/-- A 2-bit addressing-mode tag of CPY and MOV (R43). -/
abbrev Tag := BitVec 2

/-- The unsigned integer a byte stands for; there is no signed view of a byte (spec/00_scope.md section 5, R109). -/
abbrev byteInt (b : Byte) : Int := (b.toNat : Int)

end Sys2Proof
end

