-- ==== Sys2Proof/Config.lean ====
section
/-! DEFINITION. The implementation parameters (spec/00_scope.md R4) and the opcode map as a parameter
(spec/30_encoding.md R70 to R72), with the three surplus variants another map may reach
(spec/47_surplus_variants.md). -/

namespace Sys2Proof

/-- `NREG`: the number of indexable registers, fixed by the source (R4, R11). -/
abbrev Config.numRegs : Nat := 7

/-- What a memory cell that no list entry names holds.
DESIGN CHOICE (notes/assumptions/2.md), unsafe: the power-on image is a launch parameter (R32, D17). -/
abbrev Config.unlistedByte : Byte := 0

/-- The nineteen instruction behaviours of the source's table (R70); the opcode nibble selects one (R61, R82). -/
inductive Variant where
  | nop | add | sub | inc | cpy | mov | ld | lda | st | sta | jmp | hlt | je | jne | cjp | prl
  | jeq | prt | prd
  deriving DecidableEq, Repr

/-- How many immediate bytes follow the opcode byte: a function of the variant alone (R64, R65). -/
def Variant.immCount : Variant → Nat
  | .nop | .add | .sub | .inc | .jmp | .hlt | .je | .jne | .prl | .prt | .prd => 0
  | .cpy | .mov | .ld | .lda | .st | .sta | .cjp => 1
  | .jeq => 2

/-- The three variants that have no opcode in the map of R71 (R70, R116 to R118). `u` is the ignored operand nibble. -/
inductive Surplus where
  /-- JEQ (R116): compare registers `a` and `b`, jump to `target` if equal. -/
  | jeq (u : Nibble) (a b : Nibble) (target : Byte)
  /-- PRT (R117): emit OUT as a number. -/
  | prt (u : Nibble)
  /-- PRD (R118): emit OUT in digit form. -/
  | prd (u : Nibble)
  deriving DecidableEq, Repr

/-- `OPMAP`: a total map from opcode nibbles to variants (R72). -/
abbrev OpMap := Nibble → Variant

/-- R72: a map is admissible if it sends 0x0 to NOP, 0x1 to ADD and 0xB to HLT. -/
abbrev OpMap.Admissible (m : OpMap) : Prop := m 0x0#4 = .nop ∧ m 0x1#4 = .add ∧ m 0xB#4 = .hlt

/-- The parameters that R4 marks as this spec's own choice, as one configuration that is fixed at launch. Every operation
that depends on one reads it here; the values of this hardware are `hardware` of Decode.lean. -/
structure Config where
  /-- `MEM_SIZE`: the number of main-memory cells (R23, U2, decision D1). -/
  memSize : Nat
  /-- `PC_WIDTH`: the width of the program-counter index in bits, at most the 8 of its cell (R17, R19, decision D5). -/
  pcWidth : Nat
  /-- `ADDR_SPLIT`: the value of address bit 7 that selects the register file (R40, decision D3). -/
  addrSplit : Bool
  /-- `REG_REDUCE`: the register index that a register number or an address offset stands for (R14, U3, decision D4). -/
  regReduce : Nat → Fin Config.numRegs
  /-- `HALT_SENTINEL`: the index a host reads while the machine is halted (R17, U7, decision D6). -/
  haltSentinel : Int
  /-- `OPMAP`: the variant each opcode nibble selects (R71, R72, decision D2). -/
  opMap : OpMap

/-- The same machine with another opcode map (R72). -/
def Config.withMap (c : Config) (m : OpMap) : Config := { c with opMap := m }

/-- A configuration a machine can have: some memory, an index that fits its 8-bit cell, an admissible opcode map. -/
structure Config.Admissible (c : Config) : Prop where
  mem_pos : 0 < c.memSize
  pc_le : c.pcWidth ≤ 8
  map_ok : OpMap.Admissible c.opMap

end Sys2Proof
end

