-- ==== Sys2Proof/Syntax.lean ====
section
/-! DEFINITION. The sixteen instructions of spec/opcode_table.json with every field of their encodings
(spec/30_encoding.md R65, R66, R71). `u` is an operand nibble that the instruction ignores (R63); it is kept so that
no bit of an encoding is lost. -/

namespace Sys2Proof

/-- One constructor per row of spec/opcode_table.json. -/
inductive Instr where
  /-- NOP (R113), format N. -/
  | nop (u : Nibble)
  /-- ADD (R90), format N. -/
  | add (u : Nibble)
  /-- SUB (R91), format N. -/
  | sub (u : Nibble)
  /-- INC (R92), format R: register number `r`. -/
  | inc (r : Nibble)
  /-- CPY (R95), format MM: source and destination mode, source and destination sub-index. -/
  | cpy (sm dm : Tag) (src dst : Nibble)
  /-- MOV (R96), format MM. -/
  | mov (sm dm : Tag) (src dst : Nibble)
  /-- LD (R100), format RI: register number and literal. -/
  | ld (r : Nibble) (imm : Byte)
  /-- LDA (R101), format RI: register number and unified address. -/
  | lda (r : Nibble) (addr : Byte)
  /-- ST (R102), format RI: register number and unified address. -/
  | st (r : Nibble) (addr : Byte)
  /-- STA (R103), format PP: source and pointer register numbers. -/
  | sta (u : Nibble) (src ptr : Nibble)
  /-- JMP (R105), format R. -/
  | jmp (r : Nibble)
  /-- HLT (R114), format N. -/
  | hlt (u : Nibble)
  /-- JE (R106), format R. -/
  | je (r : Nibble)
  /-- JNE (R107), format R. -/
  | jne (r : Nibble)
  /-- CJP (R108), format CP: comparison code and two register numbers. -/
  | cjp (code : Nibble) (a b : Nibble)
  /-- PRL (R110), format N. -/
  | prl (u : Nibble)
  deriving DecidableEq, Repr

end Sys2Proof
end

