-- ==== Sys2Proof/WellFormed.lean ====
section
/-! DEFINITION. Which instructions use no reserved and no invalid encoding (spec/30_encoding.md R75). Every term of
`Instr` has an encoding, because each field has exactly its encoded width; what is left to check is the table of R75.
An instruction that fails a check still decodes and still runs: CPY and MOV raise `InvalidAddressingMode` (R95, R96),
CJP never jumps (R108). -/

namespace Sys2Proof

/-- A legal source mode of CPY: anything but the reserved mode 3 (R43, R95). -/
abbrev cpySourceOk (sm : Tag) : Bool := sm != 3#2

/-- A legal source mode of MOV: a location, register or memory (R96, decision D9). -/
abbrev movSourceOk (sm : Tag) : Bool := sm == 1#2 || sm == 2#2

/-- A legal destination mode of CPY and MOV: register or memory (R43, R95). -/
abbrev destOk (dm : Tag) : Bool := dm == 1#2 || dm == 2#2

/-- An assigned comparison code of CJP: 1 to 6 (R68, R108). -/
abbrev codeOk (code : Nibble) : Bool := decide (1 ≤ code.toNat) && decide (code.toNat ≤ 6)

/-- R75: the instruction uses no encoding the spec calls reserved or invalid. -/
def Instr.wellFormed : Instr → Bool
  | .nop _ | .add _ | .sub _ | .inc _ => true
  | .cpy sm dm _ _ => cpySourceOk sm && destOk dm
  | .mov sm dm _ _ => movSourceOk sm && destOk dm
  | .ld _ _ | .lda _ _ | .st _ _ | .sta _ _ _ => true
  | .jmp _ | .hlt _ | .je _ | .jne _ => true
  | .cjp code _ _ => codeOk code
  | .prl _ => true

end Sys2Proof
end

