-- ==== Sys2Proof/Decode.lean ====
section
/-! DEFINITION. The opcode/operand splitter, the opcode map, the decoder (total on any bytes) and the encoder
(spec/30_encoding.md R60 to R73, spec/40_step_cycle.md R88), the configuration of this hardware (spec/00_scope.md R4), and how a word of spec/opcode_table.json is laid out
as bytes. -/

namespace Sys2Proof

/-- `b[7:4]` (spec/00_scope.md section 5). -/
def highNibble (b : Byte) : Nibble := b.extractLsb' 4 4

/-- `b[3:0]`. -/
def lowNibble (b : Byte) : Nibble := b.extractLsb' 0 4

/-- Bits `[3:2]` of an operand nibble: the source mode of format MM (R66, decision D7). -/
def highTag (n : Nibble) : Tag := n.extractLsb' 2 2

/-- Bits `[1:0]` of an operand nibble: the destination mode of format MM (R66, decision D7). -/
def lowTag (n : Nibble) : Tag := n.extractLsb' 0 2

/-- The opcode map of R71 (decision D2) as a table indexed by the opcode nibble. -/
def opTable : List Variant :=
  [.nop, .add, .sub, .inc, .cpy, .mov, .ld, .lda, .st, .sta, .jmp, .hlt, .je, .jne, .cjp, .prl]

/-- `OPMAP` of this hardware (R71). An unpopulated code would be a no-op (R62); none is. -/
def opMap : OpMap := fun op => opTable.getD op.toNat .nop

/-- The configuration of this hardware: the values of R4 (decisions D1 to D6). -/
def hardware : Config :=
  { memSize := 128
    pcWidth := 8
    addrSplit := true
    regReduce := fun n => ⟨n % Config.numRegs, Nat.mod_lt n (by decide)⟩
    haltSentinel := -1
    opMap := opMap }

/-- R60, R61, R88: `decode` of one byte, the variant the opcode nibble selects and the operand nibble. -/
def decodeOpcode (m : OpMap) (b : Byte) : Variant × Nibble := (m (highNibble b), lowNibble b)

/-- What an instruction's bytes stand for under some opcode map: one of the sixteen assigned instructions, or a
surplus variant, which the map of R71 never gives (R70). -/
inductive Decoded where
  | core (i : Instr)
  | surplus (x : Surplus)
  deriving DecidableEq, Repr

/-- Why `decode` gives no instruction. No byte VALUE is ever rejected (R62). -/
inductive DecodeError where
  /-- The list ends before the instruction does: there is no byte, or an immediate is missing (R64). -/
  | truncated
  /-- The opcode map in use gave a surplus variant, which is no row of spec/opcode_table.json (R70). -/
  | surplusVariant (v : Variant)
  deriving DecidableEq, Repr

/-- The instruction made of a variant, its operand nibble and its immediate bytes in the order they were fetched
(R65, R66). -/
def assemble (v : Variant) (operand : Nibble) (imms : List Byte) : Decoded :=
  let i1 := imms.getD 0 0
  let i2 := imms.getD 1 0
  match v with
  | .nop => .core (.nop operand)
  | .add => .core (.add operand)
  | .sub => .core (.sub operand)
  | .inc => .core (.inc operand)
  | .cpy => .core (.cpy (highTag operand) (lowTag operand) (highNibble i1) (lowNibble i1))
  | .mov => .core (.mov (highTag operand) (lowTag operand) (highNibble i1) (lowNibble i1))
  | .ld => .core (.ld operand i1)
  | .lda => .core (.lda operand i1)
  | .st => .core (.st operand i1)
  | .sta => .core (.sta operand (highNibble i1) (lowNibble i1))
  | .jmp => .core (.jmp operand)
  | .hlt => .core (.hlt operand)
  | .je => .core (.je operand)
  | .jne => .core (.jne operand)
  | .cjp => .core (.cjp operand (highNibble i1) (lowNibble i1))
  | .prl => .core (.prl operand)
  | .jeq => .surplus (.jeq operand (highNibble i1) (lowNibble i1) i2)
  | .prt => .surplus (.prt operand)
  | .prd => .surplus (.prd operand)

/-- Decode the instruction at the front of a list of bytes under an opcode map; the rest of the list is handed back.
The length is a function of the opcode nibble alone (R64, R73). -/
def decodeWith (m : OpMap) : List Byte → Except DecodeError (Decoded × List Byte)
  | [] => .error .truncated
  | b :: rest =>
    let v := (decodeOpcode m b).1
    if rest.length < v.immCount then .error .truncated
    else .ok (assemble v (decodeOpcode m b).2 (rest.take v.immCount), rest.drop v.immCount)

/-- The decoder of this hardware: the opcode map of R71. -/
def decode (bytes : List Byte) : Except DecodeError (Instr × List Byte) :=
  match decodeWith opMap bytes with
  | .ok (.core i, rest) => .ok (i, rest)
  | .ok (.surplus (.jeq _ _ _ _), _) => .error (.surplusVariant .jeq)
  | .ok (.surplus (.prt _), _) => .error (.surplusVariant .prt)
  | .ok (.surplus (.prd _), _) => .error (.surplusVariant .prd)
  | .error e => .error e

/-- An opcode byte: opcode in the high nibble, operand in the low one (R60). -/
def opcodeByte (op operand : Nibble) : Byte := op ++ operand

/-- The operand nibble of format MM: source mode above destination mode (R66). -/
def modeNibble (sm dm : Tag) : Nibble := sm ++ dm

/-- The bytes of an instruction, opcode byte first (R46, R65, R66, R71). -/
def encode : Instr → List Byte
  | .nop u => [opcodeByte 0x0#4 u]
  | .add u => [opcodeByte 0x1#4 u]
  | .sub u => [opcodeByte 0x2#4 u]
  | .inc r => [opcodeByte 0x3#4 r]
  | .cpy sm dm src dst => [opcodeByte 0x4#4 (modeNibble sm dm), src ++ dst]
  | .mov sm dm src dst => [opcodeByte 0x5#4 (modeNibble sm dm), src ++ dst]
  | .ld r imm => [opcodeByte 0x6#4 r, imm]
  | .lda r addr => [opcodeByte 0x7#4 r, addr]
  | .st r addr => [opcodeByte 0x8#4 r, addr]
  | .sta u src ptr => [opcodeByte 0x9#4 u, src ++ ptr]
  | .jmp r => [opcodeByte 0xA#4 r]
  | .hlt u => [opcodeByte 0xB#4 u]
  | .je r => [opcodeByte 0xC#4 r]
  | .jne r => [opcodeByte 0xD#4 r]
  | .cjp code a b => [opcodeByte 0xE#4 code, a ++ b]
  | .prl u => [opcodeByte 0xF#4 u]

/-- How many bytes an instruction has (R73). -/
def Instr.byteLength : Instr → Nat
  | .nop _ | .add _ | .sub _ | .inc _ | .jmp _ | .hlt _ | .je _ | .jne _ | .prl _ => 1
  | .cpy _ _ _ _ | .mov _ _ _ _ | .ld _ _ | .lda _ _ | .st _ _ | .sta _ _ _ | .cjp _ _ _ => 2

/-- The length of the longest instruction of the map of R71, in bytes (R73). -/
abbrev maxInstrBytes : Nat := 2

/-- The bytes of a word of spec/opcode_table.json, first fetched first. The table writes an instruction as ONE number
of `width_bits` bits whose most significant byte is the opcode byte (its `match` and `mask`; its `fixed` puts a two-byte
row's opcode in bits 15 to 12), so the first byte is the highest one. Zero bytes stand after it, up to the longest
instruction. DEDUCED (notes/assumptions/6.md). -/
def wordBytes (nbits w : Nat) : List Byte :=
  let n := (nbits + 7) / 8
  (List.range n).map (fun k => BitVec.ofNat 8 (w >>> (8 * (n - 1 - k)))) ++ List.replicate (maxInstrBytes - n) 0#8

/-- The instruction the decoder reads from a word of spec/opcode_table.json. -/
def decodeTableWord (nbits w : Nat) : Option Instr :=
  match decode (wordBytes nbits w) with
  | .ok (i, _) => some i
  | .error _ => none

end Sys2Proof
end

