-- ==== Sys2Proof/Machine/State.lean ====
section
/-! DEFINITION. The state of the machine (spec/10_state.md R10 to R34, R160), its notification events
(spec/00_scope.md section 5.2), its errors (spec/60_exceptions.md R120, R124) and the state at power-on (R31, R140).
Data only: every operation stands in Machine/Ops.lean. -/

namespace Sys2Proof.Machine

/-- The seven indexable registers, in the order of their indices 0 to 6 (R11). The program counter is not one of
them (R15). -/
inductive Reg where
  | op1 | op2 | res | r1 | r2 | r3 | out
  deriving DecidableEq, Repr

/-- The register file: seven registers of 8 bits, none hardwired (R11). -/
structure RegFile where
  op1 : Byte
  op2 : Byte
  res : Byte
  r1 : Byte
  r2 : Byte
  r3 : Byte
  out : Byte
  deriving DecidableEq, Repr

/-- Every register zero-filled (R31, R142). -/
def RegFile.zero : RegFile := ⟨0, 0, 0, 0, 0, 0, 0⟩

/-- Main memory as the list of its cells that do not hold `Config.unlistedByte`, addresses strictly rising
(the form is `Memory.wf` of Machine/Ops.lean). 128 cells hold program and data alike (R23). -/
abbrev Memory := List Host.Cell

/-- Which form an emission has (R25, R26). -/
inductive OutKind where
  /-- A raw number: PRT. -/
  | num
  /-- Digit form: PRD. -/
  | dig
  /-- A character: PRL. -/
  | chr
  deriving DecidableEq, Repr

/-- One entry of the output log (R25). -/
structure Emission where
  kind : OutKind
  value : Byte
  deriving DecidableEq, Repr

/-- A notification (spec/00_scope.md section 5.2). -/
inductive Event where
  /-- A write of main memory: cell index and new byte (R24). -/
  | memChanged (index : Nat) (value : Byte)
  /-- A write of a register: register and new byte (R13). -/
  | regChanged (reg : Reg) (value : Byte)
  /-- An advance, jump, halt or reset of the PC (R20); the halted state reads as the sentinel `HALT_SENTINEL`. -/
  | pcChanged (old new : Int)
  /-- An emission (R25). -/
  | output (kind : OutKind) (value : Byte)
  /-- `reset()` of the register file (R142). -/
  | regsReset
  deriving DecidableEq, Repr

/-- The two errors the core can raise while it executes (R120, R124); the host's three are not the core's (R127). -/
inductive CoreError where
  /-- `step` or `run` called while halted (R122). -/
  | cpuHalted
  /-- CPY or MOV with a mode pattern the instruction cannot use (R123); its two mode tags (R120). -/
  | invalidAddressingMode (sm dm : Tag)
  deriving DecidableEq, Repr

/-- The machine state: the whole architectural state of R31. -/
structure MachineState where
  /-- The seven registers (R11). -/
  regs : RegFile
  /-- The index of the next byte to fetch (R17, R18). -/
  pc : Byte
  /-- The halted flag: true is Halted, false Running (R17). -/
  halted : Bool
  /-- Main memory (R23). -/
  mem : Memory
  /-- The output channel's log, oldest emission first (R25). -/
  outLog : List Emission
  /-- The output channel's modification counter (R25, R133). -/
  outCount : Nat
  deriving DecidableEq, Repr

/-- What the machine has told the host: no machine state, and read by no instruction (R29, R30, R150). -/
structure HostReport where
  /-- The notifications since power-on, oldest first (spec/00_scope.md section 5.2). -/
  events : List Event
  /-- The error port: the error raised by the last step, if it raised one. It is not latched: every later step and every
  host operation begins with none (R30, R150). -/
  error : Option CoreError
  /-- The mark that a fault was reported, which R30 asks a model to keep outside the machine state (decision D22): every
  error reported since power-on, oldest first. Nothing ever removes one (notes/assumptions/14.md). -/
  faults : List CoreError
  deriving DecidableEq, Repr

/-- The whole state: the machine state, and outside it what was reported to the host. -/
structure State extends MachineState, HostReport where
  deriving DecidableEq, Repr

/-- Why a step gives no next state. -/
inductive Fault where
  /-- `CpuHalted`: raised by `step` alone, when the machine is halted before it; nothing changes (R21, R84, R122).
  Safe: the hardware makes no step there either. -/
  | cpuHalted
  deriving DecidableEq, Repr

/-- Why the model declines an instruction. -/
inductive Refusal where
  /-- The instruction has no meaning in this model. No arm raises it: all sixteen have their meaning. Safe. -/
  | notModelled (mnemonic : String)
  deriving DecidableEq, Repr

/-- The outcome of a step or of an instruction. -/
abbrev Outcome := Host.Outcome State Fault Refusal

/-- The state at power-on with a given memory image (R31 to R33, R140, D17): registers 0, Running at index 0, nothing
emitted, nothing notified. -/
def State.powerOn (image : Memory) : State :=
  { regs := RegFile.zero, pc := 0, halted := false, mem := image, outLog := [], outCount := 0, events := [],
    error := none, faults := [] }

/-- The machine right after power-on with no program loaded (notes/assumptions/2.md, notes/assumptions/7.md). -/
def State.reset : State := State.powerOn []

end Sys2Proof.Machine
end

