-- ==== Sys2Proof/Machine/Ops.lean ====
section
/-! DEFINITION. The named operations: the primitives of spec/00_scope.md R5, "and nothing else touches state". Registers,
main memory, fetch, program counter, output, and the raising of an error (spec/60_exceptions.md R121). An operation that
depends on a parameter of R4 takes the configuration, this hardware's where none is named. -/

namespace Sys2Proof.Machine

/-! ### Truncation -/

/-- `v mod 256`, the truncation that every storage write makes (R6, R13, R24). -/
def truncate (v : Int) : Byte := BitVec.ofInt 8 v

/-! ### The register file -/

/-- The index of a register (R11). -/
def Reg.index : Reg → Nat
  | .op1 => 0 | .op2 => 1 | .res => 2 | .r1 => 3 | .r2 => 4 | .r3 => 5 | .out => 6

/-- The name table, "stable, must be preserved bit-for-bit" (R11). -/
def Reg.name : Reg → String
  | .op1 => "OP1" | .op2 => "OP2" | .res => "RES" | .r1 => "R1" | .r2 => "R2" | .r3 => "R3" | .out => "OUT"

/-- The register of an index (R11). -/
def Reg.ofIndex (i : Fin Config.numRegs) : Reg :=
  match i.val with
  | 0 => .op1 | 1 => .op2 | 2 => .res | 3 => .r1 | 4 => .r2 | 5 => .r3 | _ => .out

/-- `rx(n)`: reduces any register number or address offset to a register by `REG_REDUCE`, here `n mod 7` (R14,
decision D4). -/
def rx (n : Nat) (c : Config := hardware) : Reg := Reg.ofIndex (c.regReduce n)

/-- `x[i]`. -/
def RegFile.read (f : RegFile) : Reg → Byte
  | .op1 => f.op1 | .op2 => f.op2 | .res => f.res | .r1 => f.r1 | .r2 => f.r2 | .r3 => f.r3 | .out => f.out

/-- The register file with one register replaced. -/
def RegFile.write (f : RegFile) (r : Reg) (b : Byte) : RegFile :=
  match r with
  | .op1 => { f with op1 := b } | .op2 => { f with op2 := b } | .res => { f with res := b }
  | .r1 => { f with r1 := b } | .r2 => { f with r2 := b } | .r3 => { f with r3 := b } | .out => { f with out := b }

/-! ### Main memory -/

/-- `i mod MEM_SIZE`: every main-memory index is reduced so before the array is touched; none is rejected (R37). -/
def memIndex (i : Nat) (c : Config := hardware) : Nat := i % c.memSize

/-- The byte the list gives for an address: its first entry's, or what an unlisted address holds. -/
def Memory.lookup : Memory → Nat → Byte
  | [], _ => Config.unlistedByte
  | (b, w) :: rest, a => if a = b then w else Memory.lookup rest a

/-- Insert an entry before the first one with a higher address. -/
def Memory.insertCell : Memory → Nat → Byte → Memory
  | [], a, v => [(a, v)]
  | (b, w) :: rest, a, v => if a < b then (a, v) :: (b, w) :: rest else (b, w) :: Memory.insertCell rest a v

/-- The list without any entry for an address. -/
def Memory.dropCell (m : Memory) (a : Nat) : Memory := m.filter (fun c => c.1 != a)

/-- `M[i]`: read one cell; the index is reduced first (R5 `MemRead`, R37, R49). -/
def Memory.read (m : Memory) (i : Nat) (c : Config := hardware) : Byte := m.lookup (memIndex i c)

/-- Store one byte in a cell, keeping the canonical form (R5 `MemWrite`, R37). -/
def Memory.write (m : Memory) (i : Nat) (v : Byte) (c : Config := hardware) : Memory :=
  if v = Config.unlistedByte then m.dropCell (memIndex i c)
  else (m.dropCell (memIndex i c)).insertCell (memIndex i c) v

/-- The canonical form from an address up: addresses strictly rising and inside an array of `size` cells, and no entry
equal to what an unlisted address holds. -/
def cellsOk (size : Nat) : Nat → Memory → Bool
  | _, [] => true
  | lo, (a, v) :: rest =>
    decide (lo ≤ a) && decide (a < size) && (v != Config.unlistedByte) && cellsOk size (a + 1) rest

/-- The canonical form of a memory. -/
abbrev Memory.wf (m : Memory) (c : Config := hardware) : Bool := cellsOk c.memSize 0 m

/-! ### The state's primitives (R5). Every one that changes state appends its notification (decision D24). -/

/-- `x[i]`: no side effect (R49). -/
def State.readReg (s : State) (r : Reg) : Byte := s.regs.read r

/-- `x[i] <- v`: store `v mod 256`, notify `RegChanged` (R5, R13). -/
def State.writeReg (s : State) (r : Reg) (v : Int) : State :=
  { s with regs := s.regs.write r (truncate v), events := s.events ++ [.regChanged r (truncate v)] }

/-- `MemRead(i, 1)`: no side effect (R5, R49). -/
def State.readMem (s : State) (i : Nat) (c : Config := hardware) : Byte := s.mem.read i c

/-- `MemWrite(i, 1, v)`: store `v mod 256` in cell `i mod MEM_SIZE`, notify `MemChanged` (R5, R24). -/
def State.writeMem (s : State) (i : Nat) (v : Int) (c : Config := hardware) : State :=
  { s with mem := s.mem.write i (truncate v) c, events := s.events ++ [.memChanged (memIndex i c) (truncate v)] }

/-- An index as the program counter holds it: `PC_WIDTH` bits, here all 8, so that `pc` wraps at 256 (R19,
decision D5). -/
def wrapPc (a : Byte) (c : Config := hardware) : Byte := BitVec.ofNat 8 (a.toNat % 2 ^ c.pcWidth)

/-- `pc <- target`: the document's `jumpTo` (R5, R45). -/
def State.jumpTo (s : State) (target : Byte) (c : Config := hardware) : State :=
  { s with pc := wrapPc target c, events := s.events ++ [.pcChanged (byteInt s.pc) (byteInt (wrapPc target c))] }

/-- `halted <- 1` (R5, R114). The leftover index is kept and read by nothing (R17, notes/assumptions/5.md). -/
def State.halt (s : State) (c : Config := hardware) : State :=
  { s with halted := true, events := s.events ++ [.pcChanged (byteInt s.pc) c.haltSentinel] }

/-- `Emit(kind, v)`: log, counter and notification (R5, R25). -/
def State.emit (s : State) (kind : OutKind) (v : Byte) : State :=
  { s with outLog := s.outLog ++ [⟨kind, v⟩], outCount := s.outCount + 1, events := s.events ++ [.output kind v] }

/-! ### Errors (R121, R126, R130) -/

/-- `raise E(info)`: taking an error. The error goes to the error port and, for good, to the mark of the faults reported;
every state change already made stays; nothing is saved, no mode changes, nothing jumps (R121, R130). Control goes back to
the host, and the next step, if the host makes one, fetches at the current `pc` (R97, R123). notes/assumptions/3.md -/
def State.raise (s : State) (e : CoreError) : State := { s with error := some e, faults := s.faults ++ [e] }

/-- What a new step or host operation does to the error port: an error is reported at the return of its own step and is
not latched (R30, R150). The mark of the faults reported stays. There is no return-from-error instruction (R126). -/
def State.clearError (s : State) : State := { s with error := none }

/-! ### Fetch (R80, R81) -/

/-- `FetchByte()`: the byte at index `pc` of main memory, and the state with `pc` advanced by one (R19, R81). -/
def State.fetchByte (s : State) (c : Config := hardware) : Byte × State :=
  (s.readMem s.pc.toNat c, s.jumpTo (s.pc + 1) c)

/-- Fetch `n` bytes in ascending order (R64, R83 step 4). -/
def State.fetchBytes (n : Nat) (s : State) (c : Config := hardware) : List Byte × State :=
  match n with
  | 0 => ([], s)
  | n + 1 =>
    let first := s.fetchByte c
    let rest := State.fetchBytes n first.2 c
    (first.1 :: rest.1, rest.2)

/-- Steps (2) to (4) of R83: fetch the opcode byte, decode it, fetch its immediates. The state is the one the
instruction then acts on. -/
def State.fetchDecode (s : State) (c : Config := hardware) : Decoded × State :=
  let f := s.fetchByte c
  let v := (decodeOpcode c.opMap f.1).1
  let imms := State.fetchBytes v.immCount f.2 c
  (assemble v (decodeOpcode c.opMap f.1).2 imms.1, imms.2)

/-- The `n` bytes that stand from fetch index `i` on, the index wrapping at 256 (R18, R19, R46). -/
def State.bytesFrom (s : State) : Nat → Byte → List Byte
  | 0, _ => []
  | n + 1, i => s.readMem i.toNat :: State.bytesFrom s n (i + 1)

/-- The `n` bytes from the program counter on. -/
def State.bytesAtPc (s : State) (n : Nat) : List Byte := s.bytesFrom n s.pc

/-- The state after a step has fetched `n` bytes and before the instruction acts: the error port empty, `pc` advanced
`n` times, one `PcChanged` for each (R18, R81). -/
def State.afterFetch (s : State) (n : Nat) : State := (State.fetchBytes n s.clearError).2

end Sys2Proof.Machine
end

