-- ==== Sys2Proof/Machine/Operands.lean ====
section
/-! DEFINITION. The operand forms: the unified address dispatcher (spec/20_memory.md R36 to R42) and the tagged operands
of CPY and MOV (R43). Every effective location of R104 is one of these. -/

namespace Sys2Proof.Machine

/-- A cell an operand names: exactly one array and one offset in it (R38). -/
inductive Location where
  /-- A register of the register file. -/
  | reg (r : Reg)
  /-- A main-memory cell by its index. -/
  | mem (i : Nat)
  deriving DecidableEq, Repr

/-- Where a source operand's value comes from (R43). -/
inductive Source where
  /-- Mode 0: the sub-index itself (`zext_8`). -/
  | literal (v : Byte)
  /-- Modes 1 and 2: a cell. -/
  | location (l : Location)
  deriving DecidableEq, Repr

/-- The register a 4-bit register number names (R14, R68). -/
def regOf (n : Nibble) (c : Config := hardware) : Reg := rx n.toNat c

/-- `Resolve8(A)`: bit 7 equal to `ADDR_SPLIT`, here set, names a register, the other value a main-memory cell (R40,
decision D3). -/
def resolve8 (a : Byte) (c : Config := hardware) : Location :=
  if a.getLsbD 7 == c.addrSplit then .reg (rx (a.extractLsb' 0 7).toNat c) else .mem (a.extractLsb' 0 7).toNat

/-- Read a cell: no side effect (R41, R49). -/
def State.readLoc (s : State) (l : Location) (c : Config := hardware) : Byte :=
  match l with
  | .reg r => s.readReg r
  | .mem i => s.readMem i c

/-- Write a cell, truncating, with the matching notification (R42). -/
def State.writeLoc (s : State) (l : Location) (v : Int) (c : Config := hardware) : State :=
  match l with
  | .reg r => s.writeReg r v
  | .mem i => s.writeMem i v c

/-- `URead(A)` (R41). -/
def State.uread (s : State) (a : Byte) (c : Config := hardware) : Byte := s.readLoc (resolve8 a c) c

/-- `UWrite(A, v)` (R42). -/
def State.uwrite (s : State) (a : Byte) (v : Int) (c : Config := hardware) : State := s.writeLoc (resolve8 a c) v c

/-- A tagged operand as a source: mode 0 the literal, 1 a register, 2 one of `M[0..15]`, 3 none (R43, D8). -/
def sourceOperand (mode : Tag) (sub : Nibble) (c : Config := hardware) : Option Source :=
  match mode.toNat with
  | 0 => some (.literal (sub.zeroExtend 8))
  | 1 => some (.location (.reg (regOf sub c)))
  | 2 => some (.location (.mem sub.toNat))
  | _ => none

/-- A tagged operand as a destination: mode 1 a register, 2 one of `M[0..15]`; modes 0 and 3 name none (R43). -/
def destOperand (mode : Tag) (sub : Nibble) (c : Config := hardware) : Option Location :=
  match mode.toNat with
  | 1 => some (.reg (regOf sub c))
  | 2 => some (.mem sub.toNat)
  | _ => none

/-- The value of a source operand (R43, R95). -/
def State.readSource (s : State) (source : Source) (c : Config := hardware) : Byte :=
  match source with
  | .literal v => v
  | .location l => s.readLoc l c

end Sys2Proof.Machine
end

