-- ==== Sys2Proof/Machine/Arithmetic.lean ====
section
/-! DEFINITION. ADD, SUB, INC (spec/41_arithmetic.md R90 to R93): the exact integer result, truncated by the storage
write. -/

namespace Sys2Proof.Machine

/-- ADD: `x[RES] <- x[OP1] + x[OP2]` (R90). -/
def execAdd (_u : Nibble) (s : State) : Outcome :=
  .next (s.writeReg .res (byteInt (s.readReg .op1) + byteInt (s.readReg .op2)))

/-- SUB: `x[RES] <- x[OP1] - x[OP2]` (R91). -/
def execSub (_u : Nibble) (s : State) : Outcome :=
  .next (s.writeReg .res (byteInt (s.readReg .op1) - byteInt (s.readReg .op2)))

/-- INC: `x[i] <- x[i] + 1` with `i = rx(r)` (R92). -/
def execInc (r : Nibble) (s : State) (c : Config := hardware) : Outcome :=
  .next (s.writeReg (regOf r c) (byteInt (s.readReg (regOf r c)) + 1))

end Sys2Proof.Machine
end

