-- ==== Sys2Proof/Machine/CopyMove.lean ====
section
/-! DEFINITION. CPY and MOV (spec/42_copy_move.md R95 to R97). The mode check comes before every data access; the
immediate byte is already consumed (decision D10). -/

namespace Sys2Proof.Machine

/-- CPY: copy the source operand to the destination operand, or raise `InvalidAddressingMode` (R95). -/
def execCpy (sm dm : Tag) (src dst : Nibble) (s : State) (c : Config := hardware) : Outcome :=
  match sourceOperand sm src c, destOperand dm dst c with
  | some source, some target => .next (s.writeLoc target (byteInt (s.readSource source c)) c)
  | _, _ => .next (s.raise (.invalidAddressingMode sm dm))

/-- MOV: copy, then zero the source, which must be a location; or raise `InvalidAddressingMode` (R96, decision D9). -/
def execMov (sm dm : Tag) (src dst : Nibble) (s : State) (c : Config := hardware) : Outcome :=
  match sourceOperand sm src c, destOperand dm dst c with
  | some (.location source), some target =>
    .next ((s.writeLoc target (byteInt (s.readLoc source c)) c).writeLoc source 0 c)
  | _, _ => .next (s.raise (.invalidAddressingMode sm dm))

end Sys2Proof.Machine
end

