-- ==== Sys2Proof/Machine/Flags.lean ====
section
/-! DEFINITION. The machine has no flag and no condition code (spec/10_state.md R22): a conditional jump compares stored
bytes when it executes. This file holds those comparisons (spec/44_jumps.md R106 to R109). -/

namespace Sys2Proof.Machine

/-- The comparison code of CJP applied to two bytes read as unsigned integers (R108, R109, decisions D12 and D13);
codes 0 and 7 to 15 never hold. -/
def condition (code : Nibble) (va vb : Byte) : Bool :=
  match code.toNat with
  | 1 => va.toNat == vb.toNat
  | 2 => va.toNat != vb.toNat
  | 3 => decide (va.toNat < vb.toNat)
  | 4 => decide (va.toNat > vb.toNat)
  | 5 => decide (va.toNat ≤ vb.toNat)
  | 6 => decide (va.toNat ≥ vb.toNat)
  | _ => false

/-- Whether OP1 equals OP2: the test of JE, JNE and PRL (R106, R107, R110). -/
def State.operandsEqual (s : State) : Bool := s.readReg .op1 == s.readReg .op2

end Sys2Proof.Machine
end

