-- ==== Sys2Proof/Machine/Jumps.lean ====
section
/-! DEFINITION. JMP, JE, JNE, CJP (spec/44_jumps.md R105 to R109). A target is a register's byte, written to `pc`
unchanged (spec/20_memory.md R45). -/

namespace Sys2Proof.Machine

/-- JMP: `pc <- x[rx(r)]` (R105). -/
def execJmp (r : Nibble) (s : State) (c : Config := hardware) : Outcome := .next (s.jumpTo (s.readReg (regOf r c)) c)

/-- JE: jump if OP1 equals OP2 (R106). -/
def execJe (r : Nibble) (s : State) (c : Config := hardware) : Outcome :=
  .next (if s.operandsEqual then s.jumpTo (s.readReg (regOf r c)) c else s)

/-- JNE: jump if OP1 differs from OP2 (R107). -/
def execJne (r : Nibble) (s : State) (c : Config := hardware) : Outcome :=
  .next (if s.operandsEqual then s else s.jumpTo (s.readReg (regOf r c)) c)

/-- CJP: compare two registers under the code and, if it holds, jump to the address in RES (R108). -/
def execCjp (code : Nibble) (a b : Nibble) (s : State) (c : Config := hardware) : Outcome :=
  .next (if condition code (s.readReg (regOf a c)) (s.readReg (regOf b c)) then s.jumpTo (s.readReg .res) c else s)

end Sys2Proof.Machine
end

