-- ==== Sys2Proof/Machine/LoadStore.lean ====
section
/-! DEFINITION. LD, LDA, ST, STA (spec/43_load_store.md R100 to R104). Every address they dereference is a unified
address (R40). -/

namespace Sys2Proof.Machine

/-- LD: load the literal byte (R100). -/
def execLd (r : Nibble) (imm : Byte) (s : State) (c : Config := hardware) : Outcome :=
  .next (s.writeReg (regOf r c) (byteInt imm))

/-- LDA: load from the unified address (R101). -/
def execLda (r : Nibble) (addr : Byte) (s : State) (c : Config := hardware) : Outcome :=
  .next (s.writeReg (regOf r c) (byteInt (s.uread addr c)))

/-- ST: store a register at the unified address (R102). -/
def execSt (r : Nibble) (addr : Byte) (s : State) (c : Config := hardware) : Outcome :=
  .next (s.uwrite addr (byteInt (s.readReg (regOf r c))) c)

/-- STA: store a register at the unified address another register holds; both are read before the write (R103). -/
def execSta (_u : Nibble) (src ptr : Nibble) (s : State) (c : Config := hardware) : Outcome :=
  .next (s.uwrite (s.readReg (regOf ptr c)) (byteInt (s.readReg (regOf src c))) c)

end Sys2Proof.Machine
end

