-- ==== Sys2Proof/Machine/Print.lean ====
section
/-! DEFINITION. PRL, the print loop (spec/45_print_loop.md R110 to R112). -/

namespace Sys2Proof.Machine

/-- The part of a PRL iteration before the end test: emit the byte at the unified address in OP1, then increment
OP1 (R110). -/
def State.printOne (s : State) (c : Config := hardware) : State :=
  let emitted := s.emit .chr (s.uread (s.readReg .op1) c)
  emitted.writeReg .op1 (byteInt (emitted.readReg .op1) + 1)

/-- PRL: one iteration. With the incremented OP1 equal to OP2 it is the final one and `pc` stays past the instruction;
otherwise `pc` goes back onto it (R110, decision D14). -/
def execPrl (_u : Nibble) (s : State) (c : Config := hardware) : Outcome :=
  let printed := s.printOne c
  .next (if printed.operandsEqual then printed else printed.jumpTo (printed.pc - 1) c)

end Sys2Proof.Machine
end

