-- ==== Sys2Proof/Machine/Surplus.lean ====
section
/-! DEFINITION. The surplus variants JEQ, PRT, PRD (spec/47_surplus_variants.md R116 to R118): instructions only of a
machine configured with another opcode map (R72). The step of this hardware never runs them. -/

namespace Sys2Proof.Machine

/-- JEQ: jump to the immediate target if two registers are equal (R116). -/
def execJeq (_u : Nibble) (a b : Nibble) (target : Byte) (s : State) (c : Config := hardware) : Outcome :=
  .next (if s.readReg (regOf a c) == s.readReg (regOf b c) then s.jumpTo target c else s)

/-- PRT: emit OUT as a number (R117). -/
def execPrt (_u : Nibble) (s : State) : Outcome := .next (s.emit .num (s.readReg .out))

/-- PRD: emit OUT in digit form (R118, decision D30). -/
def execPrd (_u : Nibble) (s : State) : Outcome := .next (s.emit .dig (s.readReg .out))

/-- The meaning of a surplus variant. -/
def execSurplus (x : Surplus) (s : State) (c : Config := hardware) : Outcome :=
  match x with
  | .jeq u a b target => execJeq u a b target s c
  | .prt u => execPrt u s
  | .prd u => execPrd u s

end Sys2Proof.Machine
end

