-- ==== Sys2Proof/Machine/System.lean ====
section
/-! DEFINITION. NOP and HLT (spec/46_nop_hlt.md R113 to R115). -/

namespace Sys2Proof.Machine

/-- NOP: no effect (R113). -/
def execNop (_u : Nibble) (s : State) : Outcome := .next s

/-- HLT: the PC goes to Halted (R114). -/
def execHlt (_u : Nibble) (s : State) (c : Config := hardware) : Outcome := .next (s.halt c)

end Sys2Proof.Machine
end

