-- ==== Sys2Proof/Machine/Configured.lean ====
section
/-! DEFINITION. The meanings under any configuration (spec/00_scope.md R4): the same definitions that `exec` calls, which
names none and so runs them under this hardware's. -/

namespace Sys2Proof.Machine

/-- The meaning of each instruction on a machine with the given configuration (R4, R82). -/
def execWith (c : Config) (i : Instr) (s : State) : Outcome :=
  match i with
  | .nop u => execNop u s
  | .add u => execAdd u s
  | .sub u => execSub u s
  | .inc r => execInc r s c
  | .cpy sm dm src dst => execCpy sm dm src dst s c
  | .mov sm dm src dst => execMov sm dm src dst s c
  | .ld r imm => execLd r imm s c
  | .lda r addr => execLda r addr s c
  | .st r addr => execSt r addr s c
  | .sta u src ptr => execSta u src ptr s c
  | .jmp r => execJmp r s c
  | .hlt u => execHlt u s c
  | .je r => execJe r s c
  | .jne r => execJne r s c
  | .cjp code a b => execCjp code a b s c
  | .prl u => execPrl u s c

/-- Run what was decoded (R82). -/
def execDecoded (d : Decoded) (s : State) (c : Config := hardware) : Outcome :=
  match d with
  | .core i => execWith c i s
  | .surplus x => execSurplus x s c

end Sys2Proof.Machine
end

