-- ==== Sys2Proof/Machine/Dispatch.lean ====
section
/-! DEFINITION. The dispatch of an instruction to its meaning: exhaustive, with no default arm (spec/40_step_cycle.md
R82). The state is the one after the fetch of every byte of the instruction (R53, R83). -/

namespace Sys2Proof.Machine

def exec (i : Instr) (s : State) : Host.Outcome State Fault Refusal :=
  match i with
  | .nop u => Sys2Proof.Machine.execNop u s
  | .add u => Sys2Proof.Machine.execAdd u s
  | .sub u => Sys2Proof.Machine.execSub u s
  | .inc r => Sys2Proof.Machine.execInc r s
  | .cpy sm dm src dst => Sys2Proof.Machine.execCpy sm dm src dst s
  | .mov sm dm src dst => Sys2Proof.Machine.execMov sm dm src dst s
  | .ld r imm => Sys2Proof.Machine.execLd r imm s
  | .lda r addr => Sys2Proof.Machine.execLda r addr s
  | .st r addr => Sys2Proof.Machine.execSt r addr s
  | .sta u src ptr => Sys2Proof.Machine.execSta u src ptr s
  | .jmp r => Sys2Proof.Machine.execJmp r s
  | .hlt u => Sys2Proof.Machine.execHlt u s
  | .je r => Sys2Proof.Machine.execJe r s
  | .jne r => Sys2Proof.Machine.execJne r s
  | .cjp code a b => Sys2Proof.Machine.execCjp code a b s
  | .prl u => Sys2Proof.Machine.execPrl u s

end Sys2Proof.Machine
end

