-- ==== Sys2Proof/Machine/Step.lean ====
section
/-! DEFINITION. One step of the execution engine (spec/40_step_cycle.md R80 to R84), and a word placed where the next
step fetches. -/

namespace Sys2Proof.Machine

/-- `step()` of a machine with any configuration (R4, R72, R80): the halted check, the fetch of the whole instruction,
then its effect. -/
def stepWith (c : Config) (s : State) : Outcome :=
  if s.halted then .fault .cpuHalted
  else execDecoded (s.clearError.fetchDecode c).1 (s.clearError.fetchDecode c).2 c

/-- `step()` of this hardware. -/
def step (s : State) : Host.Outcome State Fault Refusal := stepWith hardware s

/-- Bytes stored from a fetch index on, `pc` wrapping at 256, by a loader outside the machine: no notification. -/
def placeBytes : State → Byte → List Byte → State
  | s, _, [] => s
  | s, i, b :: rest => placeBytes { s with mem := s.mem.write i.toNat b } (i + 1) rest

/-- The state with an instruction's word stored where the next step fetches, and Running, which that fetch needs. -/
def State.withFetchWord (s : State) (nbits w : Nat) : State :=
  { placeBytes s s.pc (wordBytes nbits w) with halted := false }

end Sys2Proof.Machine
end

