-- ==== Sys2Proof/Machine/HostPort.lean ====
section
/-! DEFINITION. The host's side of the interface (spec/70_reset_and_hazards.md R140 to R152): `reset`, `run`, the PC
status, reads and writes of cells between steps, the loading of a program, and the program text format
(spec/30_encoding.md R74). None of it is part of a step. -/

namespace Sys2Proof.Machine

/-- `currentIndex()`: the index, or the sentinel while halted (R17, R150). -/
def State.currentIndex (s : State) (c : Config := hardware) : Int := if s.halted then c.haltSentinel else byteInt s.pc

/-- `isHalted()` (R150). -/
def State.isHalted (s : State) : Bool := s.halted

/-- `reset()` on the program counter: Running at index 0, one `PcChanged` from the index the host reads (R141). -/
def State.resetPc (s : State) (c : Config := hardware) : State :=
  { s with pc := 0, halted := false, events := s.events ++ [.pcChanged (s.currentIndex c) 0] }

/-- `reset()` on the register file: zero-filled, one bulk notification (R142, decision D28). -/
def State.resetRegs (s : State) : State :=
  { s with regs := RegFile.zero, events := s.events ++ [.regsReset] }

/-- The engine's `reset()`: program counter first, then registers; memory and output channel stay (R144, R145). The error
port shows the last `step` or `run` no more (R150, notes/assumptions/12.md). -/
def engineReset (s : State) (c : Config := hardware) : State := (s.clearError.resetPc c).resetRegs

/-- What the host may do to the machine between two steps (R150, R151): it may not set the PC but by `reset`. -/
inductive HostOp where
  /-- Write a memory cell; the index is reduced and the value truncated. -/
  | writeMem (i : Nat) (v : Int)
  /-- Write a register. -/
  | writeReg (r : Reg) (v : Int)
  /-- `reset()`. -/
  | reset
  deriving DecidableEq, Repr

/-- The effect of one host operation (R150); cell writes are allowed while halted too. The error port shows the last
`step` or `run` no more (notes/assumptions/12.md). -/
def applyHost (s : State) (op : HostOp) (c : Config := hardware) : State :=
  match op with
  | .writeMem i v => s.clearError.writeMem i v c
  | .writeReg r v => s.clearError.writeReg r v
  | .reset => engineReset s c

/-- How a call of `run()` ends (R85 to R87, U12). -/
inductive RunResult where
  /-- HLT was executed: the end of a run. -/
  | halted (s : State)
  /-- An error left the loop, with the state as it stands (R86, R121). -/
  | error (e : CoreError) (s : State)
  /-- The fuel of this runner is used up; the run itself goes on (R85, R86). -/
  | outOfFuel (s : State)
  deriving DecidableEq, Repr

/-- `run()`, for at most `fuel` steps: steps until halted, or until a step reports an error (R85, R86). A machine that
is already halted answers `CpuHalted` at once (R122). -/
def engineRun (fuel : Nat) (s : State) (c : Config := hardware) : RunResult :=
  match fuel with
  | 0 => .outOfFuel s
  | fuel + 1 =>
    match stepWith c s with
    | .next t =>
      match t.error with
      | some e => .error e t
      | none => if t.halted then .halted t else engineRun fuel t c
    | .fault .cpuHalted => .error .cpuHalted s
    | .refused _ => .outOfFuel s

/-- Write bytes to consecutive cells from index `i` up, as many as fit; answers how many were dropped: a range write
clamps and never wraps (R147, R158). -/
def loadBytes (s : State) (i : Nat) (bytes : List Byte) (c : Config := hardware) : State × Nat :=
  match bytes with
  | [] => (s, 0)
  | b :: rest =>
    if i < c.memSize then loadBytes (applyHost s (.writeMem i (byteInt b)) c) (i + 1) rest c else (s, rest.length + 1)

/-- Load a program: its bytes from index 0 on (R74, R146). -/
def loadProgram (s : State) (bytes : List Byte) (c : Config := hardware) : State := (loadBytes s 0 bytes c).1

/-- A program text is refused at the first bad line, numbered from 1 (R74). -/
inductive TextError where
  | invalidProgramFormat (line : Nat)
  deriving DecidableEq, Repr

/-- A line without its trailing comment (`//`, `#` or `%`) and without its spaces (R74). -/
def stripLine : List Char → List Char
  | [] => []
  | '/' :: '/' :: _ => []
  | '#' :: _ => []
  | '%' :: _ => []
  | ' ' :: rest => stripLine rest
  | c :: rest => c :: stripLine rest

/-- The value of a run of binary digits, most significant first. -/
def bitsValue : Nat → List Char → Option Nat
  | acc, [] => some acc
  | acc, '0' :: rest => bitsValue (2 * acc) rest
  | acc, '1' :: rest => bitsValue (2 * acc + 1) rest
  | _, _ :: _ => none

/-- The byte of one line: exactly eight binary digits (R74). A line with none of them fails too, as the text reads
literally (notes/assumptions/9.md). -/
def lineByte (line : List Char) : Option Byte :=
  if (stripLine line).length = 8 then (bitsValue 0 (stripLine line)).map (BitVec.ofNat 8) else none

/-- The bytes of a program text from line `n` on: line `k` gives the byte for `M[k-1]` (R74). -/
def parseText : Nat → List (List Char) → Except TextError (List Byte)
  | _, [] => .ok []
  | n, line :: rest =>
    match lineByte line, parseText (n + 1) rest with
    | none, _ => .error (.invalidProgramFormat n)
    | some _, .error e => .error e
    | some b, .ok bs => .ok (b :: bs)

/-- The bytes of a whole program text (R74). -/
def programBytes (lines : List (List Char)) : Except TextError (List Byte) := parseText 1 lines

end Sys2Proof.Machine
end

