-- ==== Sys2Proof/Machine/Trace.lean ====
section
/-! DEFINITION. What a listener that hears only the notifications can keep up to date (spec/00_scope.md section 5.2,
spec/60_exceptions.md R136): the registers, memory, PC index and output channel, rebuilt event by event. -/

namespace Sys2Proof.Machine

/-- The part of the state that the notifications report. -/
structure View where
  regs : RegFile
  mem : Memory
  index : Int
  outLog : List Emission
  outCount : Nat
  deriving DecidableEq, Repr

/-- The view of a state; the PC is what a host reads, `currentIndex()`. -/
def State.view (s : State) (c : Config := hardware) : View := ⟨s.regs, s.mem, s.currentIndex c, s.outLog, s.outCount⟩

/-- What one notification says has changed. -/
def View.hear (v : View) (e : Event) (c : Config := hardware) : View :=
  match e with
  | .memChanged i b => { v with mem := v.mem.write i b c }
  | .regChanged r b => { v with regs := v.regs.write r b }
  | .pcChanged _ new => { v with index := new }
  | .output kind b => { v with outLog := v.outLog ++ [⟨kind, b⟩], outCount := v.outCount + 1 }
  | .regsReset => { v with regs := RegFile.zero }

/-- What a list of notifications says has changed, oldest first. -/
def View.replay (v : View) (es : List Event) (c : Config := hardware) : View := es.foldl (fun w e => w.hear e c) v

/-- The emission a notification carries, if it is one. -/
def Event.emission? : Event → Option Emission
  | .output kind b => some ⟨kind, b⟩
  | .memChanged _ _ | .regChanged _ _ | .pcChanged _ _ | .regsReset => none

end Sys2Proof.Machine
end

