-- ==== Sys2Proof/Safety.lean ====
section
/-! DEFINITION. The terms that statements use: what an instruction leaves alone, and the invariant of every state a
step can reach. -/

namespace Sys2Proof.Machine

/-- Every register is unchanged. -/
def RegsSame (s t : State) : Prop := ∀ r : Reg, t.readReg r = s.readReg r

/-- Every register but one is unchanged. -/
def RegsSameBut (s t : State) (d : Reg) : Prop := ∀ r : Reg, r ≠ d → t.readReg r = s.readReg r

/-- Every byte of memory reads as before. -/
def MemSame (s t : State) : Prop := ∀ a : Nat, t.readMem a = s.readMem a

/-- Every byte of memory outside one cell reads as before. -/
def MemSameBut (s t : State) (cell : Nat) : Prop := ∀ a : Nat, memIndex a ≠ memIndex cell → t.readMem a = s.readMem a

/-- The output channel is unchanged. -/
def OutputSame (s t : State) : Prop := t.outLog = s.outLog ∧ t.outCount = s.outCount

/-- No error is raised: the error port and the mark of the faults reported are unchanged. -/
def NothingRaised (s t : State) : Prop := t.error = s.error ∧ t.faults = s.faults

/-- The program counter, the halted flag, the error port and the mark of the faults reported are unchanged. -/
def ControlSame (s t : State) : Prop := t.pc = s.pc ∧ t.halted = s.halted ∧ NothingRaised s t

/-- What raising an error leaves (R121, R130): the error in the port and last in the mark of the faults reported, and
everything else as it was. The next state is the model's form of a fault (notes/assumptions/3.md). -/
def RaisedOnly (s t : State) (e : CoreError) : Prop :=
  t.error = some e ∧ t.faults = s.faults ++ [e] ∧ t.pc = s.pc ∧ t.halted = s.halted ∧ RegsSame s t ∧ MemSame s t ∧
    OutputSame s t ∧ t.events = s.events

/-- Two locations name the same cell: the same register, or memory indices that reduce to the same one (R37, R38). -/
def SameCell (l k : Location) (c : Config := hardware) : Prop :=
  match l, k with
  | .reg r, .reg q => r = q
  | .mem i, .mem j => memIndex i c = memIndex j c
  | .reg _, .mem _ => False
  | .mem _, .reg _ => False

/-- Every cell of both arrays, but those named, reads as before. -/
def CellsSameBut (s t : State) (named : List Location) : Prop :=
  ∀ c : Location, (∀ l ∈ named, ¬ SameCell c l) → t.readLoc c = s.readLoc c

/-- The notification that a write of a cell makes (R42). -/
def writeEvent (l : Location) (b : Byte) (c : Config := hardware) : Event :=
  match l with
  | .reg r => .regChanged r b
  | .mem i => .memChanged (memIndex i c) b

/-- The cells that an instruction writes when it acts on a state, by the operand forms its meaning uses (R104): none where
CPY or MOV raises an error instead (R95, R96). -/
def State.writtenCells (s : State) : Instr → List Location
  | .nop _ | .jmp _ | .hlt _ | .je _ | .jne _ | .cjp _ _ _ => []
  | .add _ | .sub _ => [.reg .res]
  | .inc r | .ld r _ | .lda r _ => [.reg (regOf r)]
  | .prl _ => [.reg .op1]
  | .st _ addr => [resolve8 addr]
  | .sta _ _ ptr => [resolve8 (s.readReg (regOf ptr))]
  | .cpy sm dm src dst =>
    match sourceOperand sm src, destOperand dm dst with
    | some _, some target => [target]
    | _, _ => []
  | .mov sm dm src dst =>
    match sourceOperand sm src, destOperand dm dst with
    | some (.location source), some target => [target, source]
    | _, _ => []

/-- The operand nibbles whose CPY faults (R95, R123). -/
def cpyBadMode (sm dm : Tag) : Prop := sm = 3#2 ∨ dm = 0#2 ∨ dm = 3#2

/-- The operand nibbles whose MOV faults (R96, R123). -/
def movBadMode (sm dm : Tag) : Prop := sm = 0#2 ∨ sm = 3#2 ∨ dm = 0#2 ∨ dm = 3#2

/-- The notifications of fetching `n` bytes from fetch index `i` on (R19, R81). -/
def fetchEvents : Nat → Byte → List Event
  | 0, _ => []
  | n + 1, i => .pcChanged (byteInt i) (byteInt (i + 1)) :: fetchEvents n (i + 1)

/-- The opcode nibble of the byte the next step fetches (R60, R80). -/
def State.nextOpcode (s : State) : Nibble := highNibble (s.readMem s.pc.toNat)

/-- An `InvalidAddressingMode` with a mode pattern that MOV cannot use (every one that CPY cannot use is among them): an
instruction raises no other error (R84, R123). -/
def errorLegal : CoreError → Prop
  | .cpuHalted => False
  | .invalidAddressingMode sm dm => movBadMode sm dm

/-- The invariant: memory in canonical form, an index that fits its width, the counter equal to the number of emissions,
the output notifications exactly the output log, the error in the port the last one marked, and every marked error legal. -/
structure State.Inv (s : State) (c : Config := hardware) : Prop where
  mem_wf : s.mem.wf c = true
  pc_lt : s.pc.toNat < 2 ^ c.pcWidth
  count_eq : s.outCount = s.outLog.length
  log_eq : s.events.filterMap Event.emission? = s.outLog
  error_marked : ∀ e, s.error = some e → s.faults.getLast? = some e
  faults_legal : ∀ e ∈ s.faults, errorLegal e

/-- A safe step answers a next state: the machine was Running (R84). -/
def State.stepSafe (s : State) : Prop := ∃ t, step s = .next t

/-- Two states that differ at most in the output channel and in what was reported to the host: what no instruction
reads (R25, R30, R150). -/
def SameInputs (s t : State) : Prop := s.regs = t.regs ∧ s.pc = t.pc ∧ s.halted = t.halted ∧ s.mem = t.mem

end Sys2Proof.Machine
end

