-- ==== Sys2Proof/Certificates/Slice0/Obligations.lean ====
section
/-! DEFINITION. The statements for the provers. A statement about `exec i s` takes for `s` the state after every byte of
the instruction has been fetched (R53, R83): its `pc` is the index of the byte after the instruction (R18), which is why
`ControlSame` then says that the instruction leaves `pc` where its fetch put it. `StepRunsDecodedInstruction` carries
these statements to a step. -/

open Sys2Proof Sys2Proof.Machine

/-! ### Encoding -/

/-- R71, R65, R66: every row of the opcode map, its byte pattern written as a number, decodes to its instruction with
each field where the row has it. -/
def Obligations.OpcodeMapDecodesEveryRow : Prop :=
  ∀ (u p q : Nibble) (m n : Tag) (b : Byte) (rest : List Byte),
    decode (BitVec.ofNat 8 (0x00 + u.toNat) :: rest) = .ok (.nop u, rest) ∧
    decode (BitVec.ofNat 8 (0x10 + u.toNat) :: rest) = .ok (.add u, rest) ∧
    decode (BitVec.ofNat 8 (0x20 + u.toNat) :: rest) = .ok (.sub u, rest) ∧
    decode (BitVec.ofNat 8 (0x30 + u.toNat) :: rest) = .ok (.inc u, rest) ∧
    decode (BitVec.ofNat 8 (0x40 + 4 * m.toNat + n.toNat) :: BitVec.ofNat 8 (16 * p.toNat + q.toNat) :: rest) =
      .ok (.cpy m n p q, rest) ∧
    decode (BitVec.ofNat 8 (0x50 + 4 * m.toNat + n.toNat) :: BitVec.ofNat 8 (16 * p.toNat + q.toNat) :: rest) =
      .ok (.mov m n p q, rest) ∧
    decode (BitVec.ofNat 8 (0x60 + u.toNat) :: b :: rest) = .ok (.ld u b, rest) ∧
    decode (BitVec.ofNat 8 (0x70 + u.toNat) :: b :: rest) = .ok (.lda u b, rest) ∧
    decode (BitVec.ofNat 8 (0x80 + u.toNat) :: b :: rest) = .ok (.st u b, rest) ∧
    decode (BitVec.ofNat 8 (0x90 + u.toNat) :: BitVec.ofNat 8 (16 * p.toNat + q.toNat) :: rest) =
      .ok (.sta u p q, rest) ∧
    decode (BitVec.ofNat 8 (0xA0 + u.toNat) :: rest) = .ok (.jmp u, rest) ∧
    decode (BitVec.ofNat 8 (0xB0 + u.toNat) :: rest) = .ok (.hlt u, rest) ∧
    decode (BitVec.ofNat 8 (0xC0 + u.toNat) :: rest) = .ok (.je u, rest) ∧
    decode (BitVec.ofNat 8 (0xD0 + u.toNat) :: rest) = .ok (.jne u, rest) ∧
    decode (BitVec.ofNat 8 (0xE0 + u.toNat) :: BitVec.ofNat 8 (16 * p.toNat + q.toNat) :: rest) =
      .ok (.cjp u p q, rest) ∧
    decode (BitVec.ofNat 8 (0xF0 + u.toNat) :: rest) = .ok (.prl u, rest)

/-- A few bytes of the decode vectors of spec/95_test_vectors.md section 2.1, decoded. -/
def Obligations.WrittenWordsDecode : Prop :=
  decode [0x3D#8] = .ok (.inc 13#4, []) ∧ decode [0x45#8, 0x36#8] = .ok (.cpy 1#2 1#2 3#4 6#4, []) ∧
  decode [0x59#8, 0x93#8] = .ok (.mov 2#2 1#2 9#4 3#4, []) ∧ decode [0x63#8, 0x2A#8] = .ok (.ld 3#4 42#8, []) ∧
  decode [0x90#8, 0x34#8] = .ok (.sta 0#4 3#4 4#4, []) ∧ decode [0xE3#8, 0x34#8] = .ok (.cjp 3#4 3#4 4#4, []) ∧
  decode [0xB7#8] = .ok (.hlt 7#4, []) ∧ decode [0xF0#8] = .ok (.prl 0#4, [])

/-- Every instruction, with every operand at every value its encoding admits, decodes from its encoding; what follows
it is handed back untouched. -/
def Obligations.DecodeOfEncodeIsIdentity : Prop :=
  ∀ (i : Instr) (rest : List Byte), decode (encode i ++ rest) = .ok (i, rest)

/-- Bytes that decode are exactly the encoding of what they decode to, and what follows it. -/
def Obligations.EncodeOfDecodeIsIdentity : Prop :=
  ∀ (bytes rest : List Byte) (i : Instr), decode bytes = .ok (i, rest) → encode i ++ rest = bytes

/-- R62, R61, R64: any byte decodes, given the immediates its opcode nibble asks for; and the variant depends on the
opcode nibble alone, the operand on the operand nibble alone. -/
def Obligations.DecodingIsTotalAndSplitsTheByte : Prop :=
  (∀ b c d : Byte, ∃ i rest, decode [b, c, d] = .ok (i, rest) ∧ rest.length = 3 - i.byteLength) ∧
  (∀ b c : Byte, highNibble b = highNibble c → (decodeOpcode opMap b).1 = (decodeOpcode opMap c).1) ∧
  (∀ b c : Byte, lowNibble b = lowNibble c → (decodeOpcode opMap b).2 = (decodeOpcode opMap c).2) ∧
  (∀ b : Byte, (highNibble b).toNat = b.toNat / 16 ∧ (lowNibble b).toNat = b.toNat % 16)

/-- R72, R71: the map of this hardware is admissible, and no bytes decode to a surplus variant under it. -/
def Obligations.DefaultMapReachesNoSurplusVariant : Prop :=
  OpMap.Admissible opMap ∧
  ∀ (bytes rest : List Byte) (x : Surplus), decodeWith opMap bytes ≠ .ok (.surplus x, rest)

/-! ### The step -/

/-- When the bytes at the program counter decode to an instruction, the step of a running machine is that instruction
acting on the state after its bytes are fetched. The fetch advances `pc` past them, notifies each advance, empties the
error port, and changes nothing else (R18, R19, R80, R81, R83). -/
def Obligations.StepRunsDecodedInstruction : Prop :=
  ∀ (s : State) (i : Instr) (rest : List Byte), s.halted = false → decode (s.bytesAtPc 2) = .ok (i, rest) →
    step s = exec i (s.afterFetch i.byteLength) ∧
    (s.afterFetch i.byteLength).pc.toNat = (s.pc.toNat + i.byteLength) % 256 ∧
    (s.afterFetch i.byteLength).regs = s.regs ∧ (s.afterFetch i.byteLength).mem = s.mem ∧
    (s.afterFetch i.byteLength).halted = false ∧ OutputSame s (s.afterFetch i.byteLength) ∧
    (s.afterFetch i.byteLength).error = none ∧ (s.afterFetch i.byteLength).faults = s.faults ∧
    (s.afterFetch i.byteLength).events = s.events ++
      (if i.byteLength = 1 then [.pcChanged (byteInt s.pc) (byteInt (s.pc + 1))]
       else [.pcChanged (byteInt s.pc) (byteInt (s.pc + 1)), .pcChanged (byteInt (s.pc + 1)) (byteInt (s.pc + 2))])

/-- R122: every `step` and every `run` of a halted machine fails with `CpuHalted`, and changes nothing. The model's
choices in it: that `CpuHalted` is the outcome fault (notes/assumptions/4.md), and that a running machine always answers
a next state, because `InvalidAddressingMode`, which R84 calls a third outcome, is a next state with the error reported
(notes/assumptions/3.md). -/
def Obligations.OnlyAHaltedMachineMakesNoStep : Prop :=
  ∀ s : State,
    (s.halted = true → step s = .fault .cpuHalted ∧ ∀ fuel, engineRun (fuel + 1) s = .error .cpuHalted s) ∧
    (s.halted = false → s.stepSafe)

/-- A word of the opcode table placed by `withFetchWord` is what the next step runs, and nothing else of the state is
touched but the bytes at the fetch index and the halted flag. The placement is the model's (notes/assumptions/6.md,
notes/assumptions/7.md). -/
def Obligations.PlacedWordIsRunNext : Prop :=
  ∀ (s : State) (nbits w : Nat) (i : Instr), nbits ≤ 16 → decodeTableWord nbits w = some i →
    step (s.withFetchWord nbits w) = exec i ((s.withFetchWord nbits w).afterFetch i.byteLength) ∧
    (s.withFetchWord nbits w).regs = s.regs ∧ (s.withFetchWord nbits w).pc = s.pc ∧
    (s.withFetchWord nbits w).halted = false ∧ (s.withFetchWord nbits w).outLog = s.outLog ∧
    (s.withFetchWord nbits w).outCount = s.outCount ∧ (s.withFetchWord nbits w).events = s.events ∧
    (s.withFetchWord nbits w).error = s.error ∧ (s.withFetchWord nbits w).faults = s.faults ∧
    ∀ a, memIndex a ≠ memIndex s.pc.toNat → memIndex a ≠ memIndex (s.pc + 1).toNat →
      (s.withFetchWord nbits w).readMem a = s.readMem a

/-! ### Arithmetic -/

/-- R90: ADD writes the sum modulo 256 to RES and changes nothing else, whatever its operand nibble. -/
def Obligations.AddWritesTruncatedSumToRes : Prop :=
  ∀ (u : Nibble) (s : State), decode [BitVec.ofNat 8 (0x10 + u.toNat)] = .ok (.add u, []) ∧
    ∃ t, exec (.add u) s = .next t ∧
      (t.readReg .res).toNat = ((s.readReg .op1).toNat + (s.readReg .op2).toNat) % 256 ∧
      RegsSameBut s t .res ∧ MemSame s t ∧ ControlSame s t ∧ OutputSame s t ∧
      t.events = s.events ++ [.regChanged .res (t.readReg .res)]

/-- R91: SUB writes the difference modulo 256 to RES and changes nothing else. -/
def Obligations.SubWritesTruncatedDifferenceToRes : Prop :=
  ∀ (u : Nibble) (s : State), decode [BitVec.ofNat 8 (0x20 + u.toNat)] = .ok (.sub u, []) ∧
    ∃ t, exec (.sub u) s = .next t ∧
      byteInt (t.readReg .res) = (byteInt (s.readReg .op1) - byteInt (s.readReg .op2)) % 256 ∧
      RegsSameBut s t .res ∧ MemSame s t ∧ ControlSame s t ∧ OutputSame s t ∧
      t.events = s.events ++ [.regChanged .res (t.readReg .res)]

/-- R92: INC adds one, modulo 256, to the register whose index is the operand nibble modulo 7. -/
def Obligations.IncAddsOneToTheNamedRegister : Prop :=
  ∀ (r : Nibble) (s : State), decode [BitVec.ofNat 8 (0x30 + r.toNat)] = .ok (.inc r, []) ∧
    (regOf r).index = r.toNat % 7 ∧
    ∃ t, exec (.inc r) s = .next t ∧
      (t.readReg (regOf r)).toNat = ((s.readReg (regOf r)).toNat + 1) % 256 ∧
      RegsSameBut s t (regOf r) ∧ MemSame s t ∧ ControlSame s t ∧ OutputSame s t ∧
      t.events = s.events ++ [.regChanged (regOf r) (t.readReg (regOf r))]

/-! ### Copy and move -/

/-- R95: CPY. Where the source mode gives a value `v` and the destination mode names a cell `l`, it stores `v` there and
changes nothing else. With source mode 3 or destination mode 0 or 3 it raises `InvalidAddressingMode` and changes
nothing but what is reported to the host; that this is a next state, where R84 speaks of a fault outcome, is the model's
choice (notes/assumptions/3.md), and so is the mark of the faults reported (notes/assumptions/14.md). -/
def Obligations.CpyCopiesSourceToDestination : Prop :=
  ∀ (sm dm : Tag) (src dst : Nibble) (s : State),
    decode [BitVec.ofNat 8 (0x40 + 4 * sm.toNat + dm.toNat), BitVec.ofNat 8 (16 * src.toNat + dst.toNat)] =
      .ok (.cpy sm dm src dst, []) ∧
    (∀ (v : Byte) (l : Location),
      (sm = 0#2 ∧ v.toNat = src.toNat) ∨ (sm = 1#2 ∧ v = s.readReg (regOf src)) ∨
        (sm = 2#2 ∧ v = s.readMem src.toNat) →
      (dm = 1#2 ∧ l = .reg (regOf dst)) ∨ (dm = 2#2 ∧ l = .mem dst.toNat) →
      ∃ t, exec (.cpy sm dm src dst) s = .next t ∧ t.readLoc l = v ∧
        CellsSameBut s t [l] ∧ ControlSame s t ∧ OutputSame s t ∧ t.events = s.events ++ [writeEvent l v]) ∧
    (cpyBadMode sm dm →
      ∃ t, exec (.cpy sm dm src dst) s = .next t ∧ RaisedOnly s t (.invalidAddressingMode sm dm))

/-- R96: MOV. Where the source mode names a cell `k` and the destination mode a cell `l`, it copies the value of `k` to
`l` and then zeroes `k`; if the two are one cell it ends as zero. With source mode 0 or 3 or destination mode 0 or 3 it
raises `InvalidAddressingMode` and changes nothing but what is reported to the host; that this is a next state, where
R84 speaks of a fault outcome, is the model's choice (notes/assumptions/3.md), and so is the mark of the faults reported
(notes/assumptions/14.md). -/
def Obligations.MovCopiesThenZeroesTheSource : Prop :=
  ∀ (sm dm : Tag) (src dst : Nibble) (s : State),
    decode [BitVec.ofNat 8 (0x50 + 4 * sm.toNat + dm.toNat), BitVec.ofNat 8 (16 * src.toNat + dst.toNat)] =
      .ok (.mov sm dm src dst, []) ∧
    (∀ k l : Location,
      (sm = 1#2 ∧ k = .reg (regOf src)) ∨ (sm = 2#2 ∧ k = .mem src.toNat) →
      (dm = 1#2 ∧ l = .reg (regOf dst)) ∨ (dm = 2#2 ∧ l = .mem dst.toNat) →
      ∃ t, exec (.mov sm dm src dst) s = .next t ∧ t.readLoc k = 0 ∧ (l ≠ k → t.readLoc l = s.readLoc k) ∧
        CellsSameBut s t [l, k] ∧ ControlSame s t ∧ OutputSame s t ∧
        t.events = s.events ++ [writeEvent l (s.readLoc k), writeEvent k 0]) ∧
    (movBadMode sm dm →
      ∃ t, exec (.mov sm dm src dst) s = .next t ∧ RaisedOnly s t (.invalidAddressingMode sm dm))

/-- R123: a step reports an error exactly when the byte it fetches is a CPY byte whose operand nibble is 0, 3, 4, 7, 8 or
11 to 15, or a MOV byte with one of these or 1 or 2. It then leaves `pc` two past the opcode byte, the machine Running,
and registers, memory and output as they were: `run` stops there with the error, and a later step goes on at that
`pc`. The model's choices in it: that the faulting step answers a next state whose error port holds the error
(notes/assumptions/3.md), the mark of the faults reported (notes/assumptions/14.md), and the bound of `engineRun`
(notes/assumptions/11.md). -/
def Obligations.StepReportsAnErrorExactlyForBadModeBytes : Prop :=
  ∀ s t : State, step s = .next t →
    (t.error ≠ none ↔
      (s.nextOpcode = 4#4 ∧ (lowNibble (s.readMem s.pc.toNat)).toNat ∈ [0, 3, 4, 7, 8, 11, 12, 13, 14, 15]) ∨
      (s.nextOpcode = 5#4 ∧ (lowNibble (s.readMem s.pc.toNat)).toNat ∈ [0, 1, 2, 3, 4, 7, 8, 11, 12, 13, 14, 15])) ∧
    (t.error ≠ none → t.pc.toNat = (s.pc.toNat + 2) % 256 ∧ t.halted = false ∧ RegsSame s t ∧ MemSame s t ∧
      OutputSame s t ∧ t.events = s.events ++ fetchEvents 2 s.pc ∧ t.stepSafe ∧
      ∀ (fuel : Nat) (e : CoreError), t.error = some e →
        e = .invalidAddressingMode (highTag (lowNibble (s.readMem s.pc.toNat)))
          (lowTag (lowNibble (s.readMem s.pc.toNat))) ∧
        t.faults = s.faults ++ [e] ∧ engineRun (fuel + 1) s = .error e t)

/-! ### Loads and stores -/

/-- R100: LD loads its literal byte. -/
def Obligations.LdLoadsTheLiteral : Prop :=
  ∀ (r : Nibble) (imm : Byte) (s : State),
    decode [BitVec.ofNat 8 (0x60 + r.toNat), imm] = .ok (.ld r imm, []) ∧ (regOf r).index = r.toNat % 7 ∧
    ∃ t, exec (.ld r imm) s = .next t ∧ t.readReg (regOf r) = imm ∧ RegsSameBut s t (regOf r) ∧ MemSame s t ∧
      ControlSame s t ∧ OutputSame s t ∧ t.events = s.events ++ [.regChanged (regOf r) imm]

/-- R101: LDA loads the byte at its unified address: main memory below 0x80, the register file from 0x80 on. -/
def Obligations.LdaLoadsFromTheUnifiedAddress : Prop :=
  ∀ (r : Nibble) (addr : Byte) (s : State),
    decode [BitVec.ofNat 8 (0x70 + r.toNat), addr] = .ok (.lda r addr, []) ∧ (regOf r).index = r.toNat % 7 ∧
    ∃ t, exec (.lda r addr) s = .next t ∧
      t.readReg (regOf r) =
        (if addr.toNat < 128 then s.readMem addr.toNat else s.readReg (rx (addr.toNat - 128))) ∧
      RegsSameBut s t (regOf r) ∧ MemSame s t ∧ ControlSame s t ∧ OutputSame s t ∧
      t.events = s.events ++ [.regChanged (regOf r) (t.readReg (regOf r))]

/-- R102: ST stores a register in the cell its unified address names, and changes no other cell. -/
def Obligations.StStoresAtTheUnifiedAddress : Prop :=
  ∀ (r : Nibble) (addr : Byte) (s : State),
    decode [BitVec.ofNat 8 (0x80 + r.toNat), addr] = .ok (.st r addr, []) ∧ (regOf r).index = r.toNat % 7 ∧
    ∃ t, exec (.st r addr) s = .next t ∧ t.readLoc (resolve8 addr) = s.readReg (regOf r) ∧
      CellsSameBut s t [resolve8 addr] ∧ ControlSame s t ∧ OutputSame s t ∧
      t.events = s.events ++ [writeEvent (resolve8 addr) (s.readReg (regOf r))]

/-- R103: STA stores a register in the cell that another register's byte names as a unified address; both registers are
read before the write, so a pointer that names its own register receives the value. -/
def Obligations.StaStoresThroughThePointer : Prop :=
  ∀ (u src ptr : Nibble) (s : State),
    decode [BitVec.ofNat 8 (0x90 + u.toNat), BitVec.ofNat 8 (16 * src.toNat + ptr.toNat)] =
      .ok (.sta u src ptr, []) ∧
    (regOf src).index = src.toNat % 7 ∧ (regOf ptr).index = ptr.toNat % 7 ∧
    ∃ t, exec (.sta u src ptr) s = .next t ∧
      t.readLoc (resolve8 (s.readReg (regOf ptr))) = s.readReg (regOf src) ∧
      CellsSameBut s t [resolve8 (s.readReg (regOf ptr))] ∧ ControlSame s t ∧ OutputSame s t ∧
      t.events = s.events ++ [writeEvent (resolve8 (s.readReg (regOf ptr))) (s.readReg (regOf src))]

/-- R40, R41, R50: the unified address map. 0x00 to 0x7F read main memory, 0x80 to 0xFF the register whose index is the
offset modulo 7; reading changes nothing, and a write through the map is a write of that cell alone. -/
def Obligations.UnifiedAddressMap : Prop :=
  ∀ (s : State) (a : Byte) (v : Int),
    (a.toNat < 128 → resolve8 a = .mem a.toNat ∧ s.uread a = s.readMem a.toNat ∧ s.uwrite a v = s.writeMem a.toNat v) ∧
    (128 ≤ a.toNat → ∃ r : Reg, r.index = (a.toNat - 128) % 7 ∧ resolve8 a = .reg r ∧
      s.uread a = s.readReg r ∧ s.uwrite a v = s.writeReg r v)

/-- R13, R24, R6: writing any integer to a cell and reading it back yields the integer modulo 256, and every other cell
is left alone; a memory index is taken modulo 128 (R37). -/
def Obligations.StorageTruncatesOnWrite : Prop :=
  ∀ (s : State) (r : Reg) (i : Nat) (v : Int),
    byteInt ((s.writeReg r v).readReg r) = v % 256 ∧ RegsSameBut s (s.writeReg r v) r ∧ MemSame s (s.writeReg r v) ∧
    (s.writeReg r v).events = s.events ++ [.regChanged r ((s.writeReg r v).readReg r)] ∧
    byteInt ((s.writeMem i v).readMem i) = v % 256 ∧ MemSameBut s (s.writeMem i v) i ∧ RegsSame s (s.writeMem i v) ∧
    (s.writeMem i v).events = s.events ++ [.memChanged (i % 128) ((s.writeMem i v).readMem i)] ∧
    s.readMem i = s.readMem (i % 128) ∧ (s.writeMem i v).mem = (s.writeMem (i % 128) v).mem

/-- Two memories in canonical form that read alike at every address are the same data. -/
def Obligations.CanonicalMemoryIsDeterminedByItsReads : Prop :=
  ∀ m n : Memory, m.wf = true → n.wf = true → (∀ a < 128, m.read a = n.read a) → m = n

/-! ### Jumps -/

/-- R105: JMP writes a register's byte to `pc` unchanged. -/
def Obligations.JmpSetsPcToTheRegister : Prop :=
  ∀ (r : Nibble) (s : State), decode [BitVec.ofNat 8 (0xA0 + r.toNat)] = .ok (.jmp r, []) ∧
    (regOf r).index = r.toNat % 7 ∧
    ∃ t, exec (.jmp r) s = .next t ∧ t.pc = s.readReg (regOf r) ∧ RegsSame s t ∧ MemSame s t ∧ OutputSame s t ∧
      t.halted = s.halted ∧ NothingRaised s t ∧
      t.events = s.events ++ [.pcChanged (byteInt s.pc) (byteInt (s.readReg (regOf r)))]

/-- R106: JE jumps if OP1 equals OP2; otherwise it does nothing. -/
def Obligations.JeJumpsIffOperandsEqual : Prop :=
  ∀ (r : Nibble) (s : State), decode [BitVec.ofNat 8 (0xC0 + r.toNat)] = .ok (.je r, []) ∧
    (regOf r).index = r.toNat % 7 ∧
    ∃ t, exec (.je r) s = .next t ∧ RegsSame s t ∧ MemSame s t ∧ OutputSame s t ∧ t.halted = s.halted ∧
      NothingRaised s t ∧
      (if s.readReg .op1 = s.readReg .op2 then
        t.pc = s.readReg (regOf r) ∧
          t.events = s.events ++ [.pcChanged (byteInt s.pc) (byteInt (s.readReg (regOf r)))]
       else t.pc = s.pc ∧ t.events = s.events)

/-- R107: JNE jumps if OP1 differs from OP2; and of JE and JNE with one operand exactly one makes a jump. -/
def Obligations.JneJumpsIffOperandsDiffer : Prop :=
  ∀ (r : Nibble) (s : State), decode [BitVec.ofNat 8 (0xD0 + r.toNat)] = .ok (.jne r, []) ∧
    (regOf r).index = r.toNat % 7 ∧
    (∃ t, exec (.jne r) s = .next t ∧ RegsSame s t ∧ MemSame s t ∧ OutputSame s t ∧ t.halted = s.halted ∧
      NothingRaised s t ∧
      (if s.readReg .op1 = s.readReg .op2 then t.pc = s.pc ∧ t.events = s.events
       else t.pc = s.readReg (regOf r) ∧
          t.events = s.events ++ [.pcChanged (byteInt s.pc) (byteInt (s.readReg (regOf r)))])) ∧
    ∀ t t', exec (.je r) s = .next t → exec (.jne r) s = .next t' →
      (t.events = s.events ∧ t'.events ≠ s.events) ∨ (t.events ≠ s.events ∧ t'.events = s.events)

/-- R108, R109: CJP jumps to the byte in RES when its code's unsigned comparison of two registers holds; under codes 0
and 7 to 15 it never does. -/
def Obligations.CjpJumpsWhenTheComparisonHolds : Prop :=
  ∀ (code a b : Nibble) (s : State),
    decode [BitVec.ofNat 8 (0xE0 + code.toNat), BitVec.ofNat 8 (16 * a.toNat + b.toNat)] =
      .ok (.cjp code a b, []) ∧
    (regOf a).index = a.toNat % 7 ∧ (regOf b).index = b.toNat % 7 ∧
    ∃ t, exec (.cjp code a b) s = .next t ∧ RegsSame s t ∧ MemSame s t ∧ OutputSame s t ∧ t.halted = s.halted ∧
      NothingRaised s t ∧
      (if (code = 1#4 ∧ (s.readReg (regOf a)).toNat = (s.readReg (regOf b)).toNat) ∨
          (code = 2#4 ∧ (s.readReg (regOf a)).toNat ≠ (s.readReg (regOf b)).toNat) ∨
          (code = 3#4 ∧ (s.readReg (regOf a)).toNat < (s.readReg (regOf b)).toNat) ∨
          (code = 4#4 ∧ (s.readReg (regOf a)).toNat > (s.readReg (regOf b)).toNat) ∨
          (code = 5#4 ∧ (s.readReg (regOf a)).toNat ≤ (s.readReg (regOf b)).toNat) ∨
          (code = 6#4 ∧ (s.readReg (regOf a)).toNat ≥ (s.readReg (regOf b)).toNat) then
        t.pc = s.readReg .res ∧ t.events = s.events ++ [.pcChanged (byteInt s.pc) (byteInt (s.readReg .res))]
       else t.pc = s.pc ∧ t.events = s.events)

/-! ### Print, halt, no-op -/

/-- R110: one iteration of PRL. It emits, as a character, the byte at the unified address in OP1, increments OP1, and
puts `pc` back onto itself unless the incremented OP1 equals OP2. -/
def Obligations.PrlEmitsAndStepsThePointer : Prop :=
  ∀ (u : Nibble) (s : State), decode [BitVec.ofNat 8 (0xF0 + u.toNat)] = .ok (.prl u, []) ∧
    ∃ t, exec (.prl u) s = .next t ∧
      t.outLog = s.outLog ++ [⟨.chr, s.uread (s.readReg .op1)⟩] ∧ t.outCount = s.outCount + 1 ∧
      (t.readReg .op1).toNat = ((s.readReg .op1).toNat + 1) % 256 ∧ RegsSameBut s t .op1 ∧ MemSame s t ∧
      t.halted = s.halted ∧ NothingRaised s t ∧
      (if t.readReg .op1 = s.readReg .op2 then
        t.pc = s.pc ∧
        t.events = s.events ++ [.output .chr (s.uread (s.readReg .op1)), .regChanged .op1 (t.readReg .op1)]
       else
        t.pc.toNat = (s.pc.toNat + 255) % 256 ∧
        t.events = s.events ++ [.output .chr (s.uread (s.readReg .op1)), .regChanged .op1 (t.readReg .op1),
          .pcChanged (byteInt s.pc) (byteInt t.pc)])

/-- R110, the whole loop: from a PRL byte at the program counter, `(OP2 - OP1) mod 256` steps, 0 read as 256, run it to
its end. They emit that many characters, leave OP1 equal to OP2 and `pc` one past the byte, and change no other register
and no memory. Each emission is a character: below 0x80 the memory byte its pointer names, from 0x80 on the byte of the
register its pointer names, which for OP1 is the pointer itself. -/
def Obligations.PrlLoopPrintsTheWholeRange : Prop :=
  ∀ (s : State) (n : Nat), s.halted = false → s.nextOpcode = 0xF#4 → 1 ≤ n → n ≤ 256 →
    ((s.readReg .op1).toNat + n) % 256 = (s.readReg .op2).toNat →
    ∃ t, Sys2Proof.core.run n s = .next t ∧ t.readReg .op1 = s.readReg .op2 ∧ RegsSameBut s t .op1 ∧ MemSame s t ∧
      t.pc.toNat = (s.pc.toNat + 1) % 256 ∧ t.halted = false ∧ t.error = none ∧ t.faults = s.faults ∧
      t.outCount = s.outCount + n ∧
      ∃ out : List Emission, t.outLog = s.outLog ++ out ∧ out.length = n ∧
        ∀ k a, k < n → a = ((s.readReg .op1).toNat + k) % 256 →
          (a < 128 → out[k]? = some ⟨.chr, s.readMem a⟩) ∧
          (128 ≤ a → (a - 128) % 7 = 0 → out[k]? = some ⟨.chr, BitVec.ofNat 8 a⟩) ∧
          ∀ r : Reg, 128 ≤ a → r ≠ .op1 → r.index = (a - 128) % 7 → out[k]? = some ⟨.chr, s.readReg r⟩

/-- R114: HLT puts the machine into Halted, notified with the sentinel, and changes nothing else. That the next step, which
the spec calls refused with `CpuHalted` (R84, R122), is the outcome fault is the model's choice
(notes/assumptions/4.md). -/
def Obligations.HltHaltsTheMachine : Prop :=
  ∀ (u : Nibble) (s : State), decode [BitVec.ofNat 8 (0xB0 + u.toNat)] = .ok (.hlt u, []) ∧
    ∃ t, exec (.hlt u) s = .next t ∧ t.halted = true ∧ t.currentIndex = -1 ∧ RegsSame s t ∧ MemSame s t ∧
      OutputSame s t ∧ NothingRaised s t ∧ t.events = s.events ++ [.pcChanged (byteInt s.pc) (-1)] ∧
      step t = .fault .cpuHalted

/-- R113: NOP has no effect: the only change a step of it makes is the advance of the opcode fetch. -/
def Obligations.NopChangesNothingButTheFetch : Prop :=
  ∀ (u : Nibble) (s : State), decode [BitVec.ofNat 8 u.toNat] = .ok (.nop u, []) ∧ exec (.nop u) s = .next s ∧
    (s.halted = false → s.readMem s.pc.toNat = BitVec.ofNat 8 u.toNat →
      ∃ t, step s = .next t ∧ t.pc.toNat = (s.pc.toNat + 1) % 256 ∧ RegsSame s t ∧ MemSame s t ∧ OutputSame s t ∧
        t.halted = false ∧ t.error = none ∧ t.faults = s.faults ∧
        t.events = s.events ++ [.pcChanged (byteInt s.pc) (byteInt t.pc)])

/-! ### Rules of the whole machine -/

/-- R20: what a step that does not halt does to the program counter. It advances by the length of the fetched
instruction, or a jump of JMP, JE, JNE sets it to the byte of the register it names, or one of CJP to that of RES, or a
PRL iteration leaves it where it was. (After HLT the index is unobservable, R17, notes/assumptions/5.md.) -/
def Obligations.OnlyFetchJumpAndPrlMoveThePc : Prop :=
  ∀ s t : State, step s = .next t → t.halted = false →
    t.pc.toNat = (s.pc.toNat + if s.nextOpcode.toNat ∈ [4, 5, 6, 7, 8, 9, 0xE] then 2 else 1) % 256 ∨
    (s.nextOpcode.toNat ∈ [0xA, 0xC, 0xD] ∧ t.pc = s.readReg (regOf (lowNibble (s.readMem s.pc.toNat)))) ∨
    (s.nextOpcode = 0xE#4 ∧ t.pc = s.readReg .res) ∨
    (s.nextOpcode = 0xF#4 ∧ t.pc = s.pc)

/-- R137, R114: a step enters the halted state exactly when it fetches a HLT byte. -/
def Obligations.OnlyHltHalts : Prop :=
  ∀ s t : State, step s = .next t → (t.halted = true ↔ s.nextOpcode = 0xB#4)

/-- R25, R134: the output channel is append-only, its counter counts the emissions, and only a PRL byte emits, one
character each time. -/
def Obligations.OnlyPrlEmitsAndTheLogOnlyGrows : Prop :=
  ∀ s t : State, step s = .next t →
    (s.nextOpcode = 0xF#4 → ∃ c : Byte, t.outLog = s.outLog ++ [⟨.chr, c⟩] ∧ t.outCount = s.outCount + 1) ∧
    (s.nextOpcode ≠ 0xF#4 → OutputSame s t)

/-- R104, R48: a step writes only the cells that the operand forms of its instruction name, computed from the state
before it as the meaning computes them (`State.writtenCells`): for ST the cell of its unified address, for STA that of
its pointer register's byte, for CPY its destination operand, for MOV its destination and its source operand. Every
other cell of both arrays reads as before; and only a CPY, MOV, ST or STA byte changes memory. -/
def Obligations.OnlyStoresChangeMemory : Prop :=
  ∀ (s t : State) (i : Instr) (rest : List Byte), decode (s.bytesAtPc 2) = .ok (i, rest) → step s = .next t →
    CellsSameBut s t (s.writtenCells i) ∧ (s.nextOpcode.toNat ∉ [4, 5, 8, 9] → MemSame s t)

/-- R14: register numbers that agree modulo 7 act alike in every instruction that takes one, CPY and MOV in register
mode included. -/
def Obligations.RegisterNumbersAliasModSeven : Prop :=
  ∀ (r q p : Nibble) (b : Byte) (m : Tag) (code u : Nibble) (s : State), r.toNat % 7 = q.toNat % 7 →
    exec (.inc r) s = exec (.inc q) s ∧ exec (.ld r b) s = exec (.ld q b) s ∧
    exec (.lda r b) s = exec (.lda q b) s ∧ exec (.st r b) s = exec (.st q b) s ∧
    exec (.sta u r p) s = exec (.sta u q p) s ∧ exec (.sta u p r) s = exec (.sta u p q) s ∧
    exec (.jmp r) s = exec (.jmp q) s ∧ exec (.je r) s = exec (.je q) s ∧ exec (.jne r) s = exec (.jne q) s ∧
    exec (.cjp code r p) s = exec (.cjp code q p) s ∧ exec (.cjp code p r) s = exec (.cjp code p q) s ∧
    exec (.cpy 1#2 m r p) s = exec (.cpy 1#2 m q p) s ∧ exec (.cpy m 1#2 p r) s = exec (.cpy m 1#2 p q) s ∧
    exec (.mov 1#2 m r p) s = exec (.mov 1#2 m q p) s ∧ exec (.mov m 1#2 p r) s = exec (.mov m 1#2 p q) s

/-- R45, R37, R50: a fetch index and the index 128 above it reach the same code. From the two, steps agree in registers,
memory, halted flag, output and error, and leave `pc` equal or 128 apart. -/
def Obligations.CodeIsSeenTwiceByThePc : Prop :=
  ∀ s t : State, step s = .next t →
    ∃ t', step { s with pc := s.pc + 128 } = .next t' ∧ t'.regs = t.regs ∧ t'.mem = t.mem ∧ t'.halted = t.halted ∧
      t'.outLog = t.outLog ∧ t'.outCount = t.outCount ∧ t'.error = t.error ∧ t'.faults = t.faults ∧
      (t'.pc = t.pc ∨ t'.pc = t.pc + 128)

/-- R57: a store is seen by the next fetch. If a step of ST, STA, CPY or MOV writes the cell that the next fetch reads,
that fetch reads the byte written (the zero, where MOV's zeroing wrote it last); and so with a write by the host. -/
def Obligations.StoreIsSeenByTheNextFetch : Prop :=
  (∀ (s t : State) (rest : List Byte), step s = .next t →
    (∀ r addr, decode (s.bytesAtPc 2) = .ok (.st r addr, rest) → SameCell (resolve8 addr) (.mem t.pc.toNat) →
      t.bytesAtPc 1 = [s.readReg (regOf r)]) ∧
    (∀ u src ptr, decode (s.bytesAtPc 2) = .ok (.sta u src ptr, rest) →
      SameCell (resolve8 (s.readReg (regOf ptr))) (.mem t.pc.toNat) → t.bytesAtPc 1 = [s.readReg (regOf src)]) ∧
    (∀ sm dm src dst source target, decode (s.bytesAtPc 2) = .ok (.cpy sm dm src dst, rest) →
      sourceOperand sm src = some source → destOperand dm dst = some target → SameCell target (.mem t.pc.toNat) →
      t.bytesAtPc 1 = [s.readSource source]) ∧
    (∀ sm dm src dst source target, decode (s.bytesAtPc 2) = .ok (.mov sm dm src dst, rest) →
      sourceOperand sm src = some (.location source) → destOperand dm dst = some target →
      (SameCell source (.mem t.pc.toNat) → t.bytesAtPc 1 = [0]) ∧
      (SameCell target (.mem t.pc.toNat) → ¬ SameCell source (.mem t.pc.toNat) →
        t.bytesAtPc 1 = [s.readLoc source]))) ∧
  ∀ (s : State) (i : Nat) (v : Int), memIndex i = memIndex s.pc.toNat →
    ∃ b : Byte, (applyHost s (.writeMem i v)).bytesAtPc 1 = [b] ∧ byteInt b = v % 256

/-- R25, R30: no instruction reads the output channel, the event trace, the error port or the mark of the faults
reported. Two states alike in the registers, `pc`, halted flag and memory make steps that agree in them, emit the same,
notify the same and report the same error. -/
def Obligations.OutputTraceAndErrorAreNeverRead : Prop :=
  ∀ s s' t : State, SameInputs s s' → step s = .next t →
    ∃ t', step s' = .next t' ∧ SameInputs t t' ∧ t.error = t'.error ∧
      (∃ out, t.outLog = s.outLog ++ out ∧ t'.outLog = s'.outLog ++ out) ∧
      (∃ new, t.events = s.events ++ new ∧ t'.events = s'.events ++ new) ∧
      (∃ raised, t.faults = s.faults ++ raised ∧ t'.faults = s'.faults ++ raised)

/-- Every step keeps the invariant: memory in canonical form, counter and notifications true to the output log, the error
port and the mark of the faults reported true and legal. -/
def Obligations.StepKeepsInv : Prop := ∀ s t : State, s.Inv → step s = .next t → t.Inv

/-- The state right after power-on has the invariant, whatever canonical memory image it is launched with. -/
def Obligations.PowerOnHasInv : Prop :=
  State.reset.Inv ∧ ∀ image : Memory, image.wf = true → (State.powerOn image).Inv

/-- Whatever the host does between steps keeps the invariant (R150, R151). -/
def Obligations.HostOperationsKeepInv : Prop := ∀ (s : State) (op : HostOp), s.Inv → (applyHost s op).Inv

/-- R136: the notifications of a step, and of a host operation, report every change it makes. Replaying them on the
registers, memory, PC index and output channel as they were gives these as they are. -/
def Obligations.NotificationsReplayTheChange : Prop :=
  (∀ s t : State, step s = .next t → ∃ es, t.events = s.events ++ es ∧ t.view = s.view.replay es) ∧
  ∀ (s : State) (op : HostOp), ∃ es, (applyHost s op).events = s.events ++ es ∧
    (applyHost s op).view = s.view.replay es

/-- R4: the parameters that are the spec's own decisions may have other values. Under every configuration with some
memory, an index that fits its cell and an admissible opcode map: power-on has the invariant, every running machine makes
a step, and every step and every host operation keeps the invariant. The model's choices in it: that every running
machine makes a step, because `InvalidAddressingMode`, which R84 calls a third outcome, is a next state with the error
reported (notes/assumptions/3.md); the form of a configuration and the bound of 8 bits on its index
(notes/assumptions/15.md); that host operations empty the error port (notes/assumptions/12.md); and the fault mark of the
invariant (notes/assumptions/14.md). -/
def Obligations.EveryConfigurationKeepsInv : Prop :=
  ∀ c : Config, c.Admissible →
    (∀ image : Memory, image.wf c = true → (State.powerOn image).Inv c) ∧
    (∀ s : State, s.halted = false → ∃ t, stepWith c s = .next t) ∧
    (∀ s t : State, s.Inv c → stepWith c s = .next t → t.Inv c) ∧
    ∀ (s : State) (op : HostOp), s.Inv c → (applyHost s op c).Inv c

/-- R30, D22: the mark of the faults reported, kept outside the machine state. A step adds the error it reports and nothing
else; a host operation leaves the mark alone and shows the error no more; so steps that leave the mark as it was have
reported no error on the way. The model's choices in it: the form of the mark (notes/assumptions/14.md), that a step which
reports an error answers a next state (notes/assumptions/3.md), and that host operations empty the error port
(notes/assumptions/12.md). -/
def Obligations.FaultMarkOutlivesEveryStep : Prop :=
  (∀ s t : State, step s = .next t → t.faults = s.faults ++ t.error.toList) ∧
  (∀ (s : State) (op : HostOp), (applyHost s op).faults = s.faults ∧ (applyHost s op).error = none) ∧
  ∀ (n : Nat) (s t : State), Sys2Proof.core.run n s = .next t →
    s.faults <+: t.faults ∧
    (t.faults = s.faults → ∀ j u, 1 ≤ j → j ≤ n → Sys2Proof.core.run j s = .next u → u.error = none)

/-! ### Reset, run, loading -/

/-- R31: the state right after power-on. The memory image is a launch parameter; right after `State.reset` every cell
reads 0, which is the model's choice for a launch with no image (notes/assumptions/2.md). -/
def Obligations.PowerOnState : Prop :=
  (∀ image : Memory, (∀ r, (State.powerOn image).readReg r = 0) ∧ (State.powerOn image).pc = 0 ∧
    (State.powerOn image).halted = false ∧ (State.powerOn image).mem = image ∧ (State.powerOn image).outLog = [] ∧
    (State.powerOn image).outCount = 0 ∧ (State.powerOn image).events = [] ∧ (State.powerOn image).error = none ∧
    (State.powerOn image).faults = []) ∧
  State.reset = State.powerOn [] ∧ ∀ a, State.reset.readMem a = 0

/-- R141, R142, R144, R145: `reset()` in any state gives Running at index 0 with registers 0, notified program counter
first, and leaves memory and output alone; the next fetch reads `M[0]` (R143, which the spec derives). The model's
choices in it: that the next step answers even where `M[0]` is a CPY or MOV byte that raises an error
(notes/assumptions/3.md), that the error port is emptied (notes/assumptions/12.md), and that the mark of the faults
reported stays (notes/assumptions/14.md). -/
def Obligations.EngineResetRestartsAndKeepsMemory : Prop :=
  ∀ s : State, (engineReset s).pc = 0 ∧ (engineReset s).halted = false ∧ (∀ r, (engineReset s).readReg r = 0) ∧
    MemSame s (engineReset s) ∧ OutputSame s (engineReset s) ∧
    (engineReset s).events =
      s.events ++ [.pcChanged (if s.halted then -1 else byteInt s.pc) 0, .regsReset] ∧
    (engineReset s).error = none ∧ (engineReset s).faults = s.faults ∧
    (engineReset s).bytesAtPc 1 = [s.readMem 0] ∧ (engineReset s).stepSafe

/-- R85, R86: a run that ends halted is the sequence of steps up to and including the first one that halts, none of
which reports an error. -/
def Obligations.RunIsTheStepsUpToTheHalt : Prop :=
  ∀ (fuel : Nat) (s t : State), engineRun fuel s = .halted t →
    t.halted = true ∧ t.error = none ∧ t.faults = s.faults ∧
    ∃ k, 1 ≤ k ∧ k ≤ fuel ∧ Sys2Proof.core.run k s = .next t ∧
      ∀ j u, 1 ≤ j → j < k → Sys2Proof.core.run j s = .next u → u.halted = false ∧ u.error = none

/-- R146, R147: loading a program writes its byte `k` to `M[k]`, drops the bytes beyond the 128th, and leaves the rest
of memory, the registers and the PC alone. Each byte written is notified once, in order (notes/assumptions/9.md), and the
error port is emptied once a byte is (notes/assumptions/12.md): these are the model's choices. -/
def Obligations.LoadingFillsMemoryFromZeroAndDropsTheExcess : Prop :=
  ∀ (s : State) (bytes : List Byte), (loadBytes s 0 bytes).2 = bytes.length - 128 ∧
    (∀ k < 128, (loadProgram s bytes).readMem k = (bytes[k]?).getD (s.readMem k)) ∧
    RegsSame s (loadProgram s bytes) ∧ OutputSame s (loadProgram s bytes) ∧ (loadProgram s bytes).pc = s.pc ∧
    (loadProgram s bytes).halted = s.halted ∧ (loadProgram s bytes).faults = s.faults ∧
    (loadProgram s bytes).error = (if bytes = [] then s.error else none) ∧
    ∃ new : List Event, (loadProgram s bytes).events = s.events ++ new ∧ new.length = min bytes.length 128 ∧
      ∀ k b, k < 128 → bytes[k]? = some b → new[k]? = some (.memChanged k b)

/-! ### The surplus variants -/

/-- R116: on a machine whose opcode map reaches JEQ, a step of it consumes three bytes and jumps to the third if the two
registers its second byte names are equal. -/
def Obligations.JeqJumpsToItsImmediateTarget : Prop :=
  ∀ (m : OpMap) (s : State), s.halted = false → m s.nextOpcode = .jeq →
    ∃ t, stepWith (hardware.withMap m) s = .next t ∧ RegsSame s t ∧ MemSame s t ∧ OutputSame s t ∧ t.halted = false ∧
      t.error = none ∧ t.faults = s.faults ∧
      (if s.readReg (regOf (highNibble (s.readMem (s.pc + 1).toNat))) =
          s.readReg (regOf (lowNibble (s.readMem (s.pc + 1).toNat))) then
        t.pc = s.readMem (s.pc + 2).toNat ∧
        t.events = s.events ++ fetchEvents 3 s.pc ++
          [.pcChanged (byteInt (s.pc + 3)) (byteInt (s.readMem (s.pc + 2).toNat))]
       else t.pc = s.pc + 3 ∧ t.events = s.events ++ fetchEvents 3 s.pc)

/-- R117, R118: on a machine whose opcode map reaches PRT or PRD, a step of it emits OUT, tagged as a number or in digit
form, and changes nothing else. -/
def Obligations.PrtAndPrdEmitOut : Prop :=
  ∀ (m : OpMap) (s : State) (k : OutKind), s.halted = false →
    (m s.nextOpcode = .prt ∧ k = .num) ∨ (m s.nextOpcode = .prd ∧ k = .dig) →
    ∃ t, stepWith (hardware.withMap m) s = .next t ∧ t.outLog = s.outLog ++ [⟨k, s.readReg .out⟩] ∧
      t.outCount = s.outCount + 1 ∧ RegsSame s t ∧ MemSame s t ∧ t.pc = s.pc + 1 ∧ t.halted = false ∧ t.error = none ∧ t.faults = s.faults ∧
      t.events = s.events ++ fetchEvents 1 s.pc ++ [.output k (s.readReg .out)]
end

