-- ==== Sys2Proof/Laws/Memory.lean ====
section
/-! SUPPORT. Main memory: what a write changes, and that it keeps the canonical form. The read laws need no canonical
form. -/

namespace Sys2Proof.Machine

theorem memIndex_eq_mod (i : Nat) : memIndex i = i % 128 := rfl

theorem memIndex_lt (i : Nat) {c : Config} (hc : 0 < c.memSize) : memIndex i c < c.memSize := Nat.mod_lt _ hc

@[simp] theorem memIndex_memIndex (i : Nat) (c : Config) : memIndex (memIndex i c) c = memIndex i c := Nat.mod_mod _ _

theorem memIndex_of_lt {i : Nat} {c : Config} (h : i < c.memSize) : memIndex i c = i := Nat.mod_eq_of_lt h

@[simp] theorem Memory.lookup_nil (a : Nat) : Memory.lookup [] a = Config.unlistedByte := rfl

theorem Memory.lookup_cons (b : Nat) (w : Byte) (m : Memory) (a : Nat) :
    Memory.lookup ((b, w) :: m) a = if a = b then w else Memory.lookup m a := rfl

theorem Memory.dropCell_cons (b : Nat) (w : Byte) (m : Memory) (a : Nat) :
    Memory.dropCell ((b, w) :: m) a = if b = a then m.dropCell a else (b, w) :: m.dropCell a := by
  by_cases h : b = a <;> simp [Memory.dropCell, h]

theorem Memory.lookup_dropCell (m : Memory) (a c : Nat) :
    (m.dropCell a).lookup c = if c = a then Config.unlistedByte else m.lookup c := by
  induction m with
  | nil => simp [Memory.dropCell]
  | cons x m ih =>
    obtain ⟨b, w⟩ := x
    rw [Memory.dropCell_cons]
    by_cases hb : b = a
    · rw [if_pos hb, ih, Memory.lookup_cons]
      by_cases hc : c = a
      · simp [hc]
      · simp [hc, show c ≠ b by omega]
    · rw [if_neg hb, Memory.lookup_cons, Memory.lookup_cons, ih]
      by_cases hc : c = a
      · simp [hc, show a ≠ b by omega]
      · simp [hc]

theorem Memory.lookup_insertCell_same (m : Memory) (a : Nat) (v : Byte) :
    ((m.dropCell a).insertCell a v).lookup a = v := by
  induction m with
  | nil => simp [Memory.dropCell, Memory.insertCell, Memory.lookup]
  | cons x m ih =>
    obtain ⟨b, w⟩ := x
    rw [Memory.dropCell_cons]
    by_cases hb : b = a
    · rw [if_pos hb, ih]
    · rw [if_neg hb, Memory.insertCell]
      by_cases hl : a < b
      · simp [hl, Memory.lookup]
      · rw [if_neg hl, Memory.lookup_cons, ih, if_neg (fun h => hb h.symm)]

theorem Memory.lookup_insertCell_ne (m : Memory) {a c : Nat} (v : Byte) (h : c ≠ a) :
    (m.insertCell a v).lookup c = m.lookup c := by
  induction m with
  | nil => simp [Memory.insertCell, Memory.lookup, h]
  | cons x m ih =>
    obtain ⟨b, w⟩ := x
    rw [Memory.insertCell]
    by_cases hl : a < b
    · simp [hl, Memory.lookup_cons, h]
    · rw [if_neg hl, Memory.lookup_cons, Memory.lookup_cons, ih]

/-- What any cell reads as after a write. -/
theorem Memory.read_write (m : Memory) (i : Nat) (v : Byte) (j : Nat) (c : Config) :
    (m.write i v c).read j c = if memIndex j c = memIndex i c then v else m.read j c := by
  unfold Memory.read Memory.write
  by_cases hv : v = Config.unlistedByte
  · rw [if_pos hv, Memory.lookup_dropCell, hv]
  · rw [if_neg hv]
    by_cases h : memIndex j c = memIndex i c
    · rw [if_pos h, h, Memory.lookup_insertCell_same]
    · rw [if_neg h, Memory.lookup_insertCell_ne _ _ h, Memory.lookup_dropCell, if_neg h]

theorem Memory.read_memIndex (m : Memory) (i : Nat) (c : Config) : m.read (memIndex i c) c = m.read i c := by
  simp [Memory.read]

theorem Memory.write_memIndex (m : Memory) (i : Nat) (v : Byte) (c : Config) :
    m.write (memIndex i c) v c = m.write i v c := by
  simp [Memory.write]

/-! ### The canonical form -/

theorem cellsOk_cons (size lo a : Nat) (v : Byte) (m : Memory) :
    cellsOk size lo ((a, v) :: m) = true ↔
      lo ≤ a ∧ a < size ∧ v ≠ Config.unlistedByte ∧ cellsOk size (a + 1) m = true := by
  simp [cellsOk, and_assoc]

theorem cellsOk_mono {size lo lo' : Nat} {m : Memory} (h : lo' ≤ lo) (hm : cellsOk size lo m = true) :
    cellsOk size lo' m = true := by
  cases m with
  | nil => rfl
  | cons x m =>
    obtain ⟨a, v⟩ := x
    rw [cellsOk_cons] at hm ⊢
    exact ⟨by omega, hm.2⟩

theorem cellsOk_dropCell {size lo : Nat} {m : Memory} (a : Nat) (hm : cellsOk size lo m = true) :
    cellsOk size lo (m.dropCell a) = true := by
  induction m generalizing lo with
  | nil => rfl
  | cons x m ih =>
    obtain ⟨b, w⟩ := x
    rw [cellsOk_cons] at hm
    obtain ⟨h1, h2, h3, h4⟩ := hm
    rw [Memory.dropCell_cons]
    by_cases hb : b = a
    · rw [if_pos hb]; exact ih (cellsOk_mono (by omega) h4)
    · rw [if_neg hb, cellsOk_cons]; exact ⟨h1, h2, h3, ih h4⟩

/-- A cell address that the list does not name. -/
theorem Memory.dropCell_not_mem (m : Memory) (a : Nat) : ∀ c ∈ m.dropCell a, c.1 ≠ a := by
  intro c hc
  simpa [Memory.dropCell] using (List.mem_filter.mp hc).2

theorem cellsOk_insertCell {size lo : Nat} {m : Memory} {a : Nat} {v : Byte} (hm : cellsOk size lo m = true)
    (hlo : lo ≤ a) (ha : a < size) (hv : v ≠ Config.unlistedByte) (hn : ∀ c ∈ m, c.1 ≠ a) :
    cellsOk size lo (m.insertCell a v) = true := by
  induction m generalizing lo with
  | nil =>
    have h : cellsOk size lo [(a, v)] = true := (cellsOk_cons _ _ _ _ _).mpr ⟨hlo, ha, hv, rfl⟩
    exact h
  | cons x m ih =>
    obtain ⟨b, w⟩ := x
    rw [cellsOk_cons] at hm
    obtain ⟨h1, h2, h3, h4⟩ := hm
    have hb : b ≠ a := hn (b, w) (by simp)
    rw [Memory.insertCell]
    by_cases hl : a < b
    · rw [if_pos hl, cellsOk_cons, cellsOk_cons]
      exact ⟨hlo, ha, hv, by omega, h2, h3, h4⟩
    · rw [if_neg hl, cellsOk_cons]
      exact ⟨h1, h2, h3, ih h4 (by omega) (fun c hc => hn c (by simp [hc]))⟩

/-- A write keeps the canonical form, under any configuration with some memory. -/
theorem Memory.write_wf {m : Memory} {c : Config} (hc : 0 < c.memSize) (i : Nat) (v : Byte) (h : m.wf c = true) :
    (m.write i v c).wf c = true := by
  unfold Memory.write
  split
  · exact cellsOk_dropCell _ h
  · next hv =>
    exact cellsOk_insertCell (cellsOk_dropCell _ h) (Nat.zero_le _) (memIndex_lt i hc) hv (Memory.dropCell_not_mem _ _)

/-- This hardware has some memory. -/
theorem hardware_mem_pos : 0 < hardware.memSize := by decide

/-- Bytes placed by a loader keep the canonical form. -/
theorem placeBytes_wf (bs : List Byte) (s : State) (i : Byte) (h : s.mem.wf = true) :
    (placeBytes s i bs).mem.wf = true := by
  induction bs generalizing s i with
  | nil => exact h
  | cons b bs ih => exact ih _ _ (Memory.write_wf hardware_mem_pos _ _ h)

/-- The memory of the machine right after reset has the canonical form. -/
theorem reset_mem_wf : State.reset.mem.wf = true := rfl

end Sys2Proof.Machine
end

