-- ==== Sys2Proof/Laws/State.lean ====
section
/-! SUPPORT. One lemma per field per update of the state: a primitive changes the fields it names and no other. -/

namespace Sys2Proof.Machine

variable (s : State)

/-! ### writeReg -/

@[simp] theorem State.writeReg_regs (r : Reg) (v : Int) : (s.writeReg r v).regs = s.regs.write r (truncate v) := rfl
@[simp] theorem State.writeReg_pc (r : Reg) (v : Int) : (s.writeReg r v).pc = s.pc := rfl
@[simp] theorem State.writeReg_halted (r : Reg) (v : Int) : (s.writeReg r v).halted = s.halted := rfl
@[simp] theorem State.writeReg_mem (r : Reg) (v : Int) : (s.writeReg r v).mem = s.mem := rfl
@[simp] theorem State.writeReg_outLog (r : Reg) (v : Int) : (s.writeReg r v).outLog = s.outLog := rfl
@[simp] theorem State.writeReg_outCount (r : Reg) (v : Int) : (s.writeReg r v).outCount = s.outCount := rfl
@[simp] theorem State.writeReg_events (r : Reg) (v : Int) : (s.writeReg r v).events = s.events ++ [.regChanged r (truncate v)] := rfl
@[simp] theorem State.writeReg_error (r : Reg) (v : Int) : (s.writeReg r v).error = s.error := rfl
@[simp] theorem State.writeReg_faults (r : Reg) (v : Int) : (s.writeReg r v).faults = s.faults := rfl

/-! ### writeMem -/

@[simp] theorem State.writeMem_regs (i : Nat) (v : Int) (c : Config) : (s.writeMem i v c).regs = s.regs := rfl
@[simp] theorem State.writeMem_pc (i : Nat) (v : Int) (c : Config) : (s.writeMem i v c).pc = s.pc := rfl
@[simp] theorem State.writeMem_halted (i : Nat) (v : Int) (c : Config) : (s.writeMem i v c).halted = s.halted := rfl
@[simp] theorem State.writeMem_mem (i : Nat) (v : Int) (c : Config) : (s.writeMem i v c).mem = s.mem.write i (truncate v) c := rfl
@[simp] theorem State.writeMem_outLog (i : Nat) (v : Int) (c : Config) : (s.writeMem i v c).outLog = s.outLog := rfl
@[simp] theorem State.writeMem_outCount (i : Nat) (v : Int) (c : Config) : (s.writeMem i v c).outCount = s.outCount := rfl
@[simp] theorem State.writeMem_events (i : Nat) (v : Int) (c : Config) : (s.writeMem i v c).events = s.events ++ [.memChanged (memIndex i c) (truncate v)] := rfl
@[simp] theorem State.writeMem_error (i : Nat) (v : Int) (c : Config) : (s.writeMem i v c).error = s.error := rfl
@[simp] theorem State.writeMem_faults (i : Nat) (v : Int) (c : Config) : (s.writeMem i v c).faults = s.faults := rfl

/-! ### jumpTo -/

@[simp] theorem State.jumpTo_regs (a : Byte) (c : Config) : (s.jumpTo a c).regs = s.regs := rfl
@[simp] theorem State.jumpTo_pc (a : Byte) (c : Config) : (s.jumpTo a c).pc = wrapPc a c := rfl
@[simp] theorem State.jumpTo_halted (a : Byte) (c : Config) : (s.jumpTo a c).halted = s.halted := rfl
@[simp] theorem State.jumpTo_mem (a : Byte) (c : Config) : (s.jumpTo a c).mem = s.mem := rfl
@[simp] theorem State.jumpTo_outLog (a : Byte) (c : Config) : (s.jumpTo a c).outLog = s.outLog := rfl
@[simp] theorem State.jumpTo_outCount (a : Byte) (c : Config) : (s.jumpTo a c).outCount = s.outCount := rfl
@[simp] theorem State.jumpTo_events (a : Byte) (c : Config) : (s.jumpTo a c).events = s.events ++ [.pcChanged (byteInt s.pc) (byteInt (wrapPc a c))] := rfl
@[simp] theorem State.jumpTo_error (a : Byte) (c : Config) : (s.jumpTo a c).error = s.error := rfl
@[simp] theorem State.jumpTo_faults (a : Byte) (c : Config) : (s.jumpTo a c).faults = s.faults := rfl

/-! ### halt -/

@[simp] theorem State.halt_regs (c : Config) : (s.halt c).regs = s.regs := rfl
@[simp] theorem State.halt_pc (c : Config) : (s.halt c).pc = s.pc := rfl
@[simp] theorem State.halt_halted (c : Config) : (s.halt c).halted = true := rfl
@[simp] theorem State.halt_mem (c : Config) : (s.halt c).mem = s.mem := rfl
@[simp] theorem State.halt_outLog (c : Config) : (s.halt c).outLog = s.outLog := rfl
@[simp] theorem State.halt_outCount (c : Config) : (s.halt c).outCount = s.outCount := rfl
@[simp] theorem State.halt_events (c : Config) : (s.halt c).events = s.events ++ [.pcChanged (byteInt s.pc) c.haltSentinel] := rfl
@[simp] theorem State.halt_error (c : Config) : (s.halt c).error = s.error := rfl
@[simp] theorem State.halt_faults (c : Config) : (s.halt c).faults = s.faults := rfl

/-! ### emit -/

@[simp] theorem State.emit_regs (k : OutKind) (b : Byte) : (s.emit k b).regs = s.regs := rfl
@[simp] theorem State.emit_pc (k : OutKind) (b : Byte) : (s.emit k b).pc = s.pc := rfl
@[simp] theorem State.emit_halted (k : OutKind) (b : Byte) : (s.emit k b).halted = s.halted := rfl
@[simp] theorem State.emit_mem (k : OutKind) (b : Byte) : (s.emit k b).mem = s.mem := rfl
@[simp] theorem State.emit_outLog (k : OutKind) (b : Byte) : (s.emit k b).outLog = s.outLog ++ [⟨k, b⟩] := rfl
@[simp] theorem State.emit_outCount (k : OutKind) (b : Byte) : (s.emit k b).outCount = s.outCount + 1 := rfl
@[simp] theorem State.emit_events (k : OutKind) (b : Byte) : (s.emit k b).events = s.events ++ [.output k b] := rfl
@[simp] theorem State.emit_error (k : OutKind) (b : Byte) : (s.emit k b).error = s.error := rfl
@[simp] theorem State.emit_faults (k : OutKind) (b : Byte) : (s.emit k b).faults = s.faults := rfl

/-! ### raise -/

@[simp] theorem State.raise_regs (e : CoreError) : (s.raise e).regs = s.regs := rfl
@[simp] theorem State.raise_pc (e : CoreError) : (s.raise e).pc = s.pc := rfl
@[simp] theorem State.raise_halted (e : CoreError) : (s.raise e).halted = s.halted := rfl
@[simp] theorem State.raise_mem (e : CoreError) : (s.raise e).mem = s.mem := rfl
@[simp] theorem State.raise_outLog (e : CoreError) : (s.raise e).outLog = s.outLog := rfl
@[simp] theorem State.raise_outCount (e : CoreError) : (s.raise e).outCount = s.outCount := rfl
@[simp] theorem State.raise_events (e : CoreError) : (s.raise e).events = s.events := rfl
@[simp] theorem State.raise_error (e : CoreError) : (s.raise e).error = some e := rfl
@[simp] theorem State.raise_faults (e : CoreError) : (s.raise e).faults = s.faults ++ [e] := rfl

/-! ### clearError -/

@[simp] theorem State.clearError_regs : (s.clearError).regs = s.regs := rfl
@[simp] theorem State.clearError_pc : (s.clearError).pc = s.pc := rfl
@[simp] theorem State.clearError_halted : (s.clearError).halted = s.halted := rfl
@[simp] theorem State.clearError_mem : (s.clearError).mem = s.mem := rfl
@[simp] theorem State.clearError_outLog : (s.clearError).outLog = s.outLog := rfl
@[simp] theorem State.clearError_outCount : (s.clearError).outCount = s.outCount := rfl
@[simp] theorem State.clearError_events : (s.clearError).events = s.events := rfl
@[simp] theorem State.clearError_error : (s.clearError).error = none := rfl
@[simp] theorem State.clearError_faults : (s.clearError).faults = s.faults := rfl

/-! ### Reads -/

/-- A register read depends on the register file alone. -/
theorem State.readReg_congr {s t : State} (h : t.regs = s.regs) (r : Reg) : t.readReg r = s.readReg r := by
  rw [State.readReg, h, State.readReg]

/-- A memory read depends on memory alone. -/
theorem State.readMem_congr {s t : State} (h : t.mem = s.mem) (i : Nat) (c : Config) : t.readMem i c = s.readMem i c := by
  rw [State.readMem, h, State.readMem]

@[simp] theorem State.writeReg_readMem (r : Reg) (v : Int) (j : Nat) (c : Config) : (s.writeReg r v).readMem j c = s.readMem j c := rfl
@[simp] theorem State.writeMem_readReg (i : Nat) (v : Int) (c : Config) (q : Reg) : (s.writeMem i v c).readReg q = s.readReg q := rfl
@[simp] theorem State.jumpTo_readReg (a : Byte) (c : Config) (q : Reg) : (s.jumpTo a c).readReg q = s.readReg q := rfl
@[simp] theorem State.jumpTo_readMem (a : Byte) (c : Config) (j : Nat) (d : Config) : (s.jumpTo a c).readMem j d = s.readMem j d := rfl
@[simp] theorem State.halt_readReg (q : Reg) (c : Config) : (s.halt c).readReg q = s.readReg q := rfl
@[simp] theorem State.halt_readMem (j : Nat) (c d : Config) : (s.halt c).readMem j d = s.readMem j d := rfl
@[simp] theorem State.emit_readReg (k : OutKind) (b : Byte) (q : Reg) : (s.emit k b).readReg q = s.readReg q := rfl
@[simp] theorem State.emit_readMem (k : OutKind) (b : Byte) (j : Nat) (d : Config) : (s.emit k b).readMem j d = s.readMem j d := rfl
@[simp] theorem State.raise_readReg (e : CoreError) (q : Reg) : (s.raise e).readReg q = s.readReg q := rfl
@[simp] theorem State.raise_readMem (e : CoreError) (j : Nat) (d : Config) : (s.raise e).readMem j d = s.readMem j d := rfl
@[simp] theorem State.clearError_readReg (q : Reg) : (s.clearError).readReg q = s.readReg q := rfl
@[simp] theorem State.clearError_readMem (j : Nat) (d : Config) : (s.clearError).readMem j d = s.readMem j d := rfl

/-! ### The state at power-on (R31) -/

@[simp] theorem State.powerOn_regs (image : Memory) : (State.powerOn image).regs = RegFile.zero := rfl
@[simp] theorem State.powerOn_pc (image : Memory) : (State.powerOn image).pc = 0 := rfl
@[simp] theorem State.powerOn_halted (image : Memory) : (State.powerOn image).halted = false := rfl
@[simp] theorem State.powerOn_mem (image : Memory) : (State.powerOn image).mem = image := rfl
@[simp] theorem State.powerOn_outLog (image : Memory) : (State.powerOn image).outLog = [] := rfl
@[simp] theorem State.powerOn_outCount (image : Memory) : (State.powerOn image).outCount = 0 := rfl
@[simp] theorem State.powerOn_events (image : Memory) : (State.powerOn image).events = [] := rfl
@[simp] theorem State.powerOn_error (image : Memory) : (State.powerOn image).error = none := rfl
@[simp] theorem State.powerOn_faults (image : Memory) : (State.powerOn image).faults = [] := rfl

/-! ### This hardware's parameters (R4) -/

@[simp] theorem hardware_memSize : hardware.memSize = 128 := rfl
@[simp] theorem hardware_pcWidth : hardware.pcWidth = 8 := rfl
@[simp] theorem hardware_addrSplit : hardware.addrSplit = true := rfl
@[simp] theorem hardware_haltSentinel : hardware.haltSentinel = -1 := rfl
@[simp] theorem hardware_opMap : hardware.opMap = opMap := rfl

/-- An 8-bit index is kept whole (decision D5). -/
@[simp] theorem wrapPc_hardware (a : Byte) : wrapPc a = a := by
  apply BitVec.eq_of_toNat_eq
  have := a.isLt
  simp [wrapPc]
  omega

/-- The opcode map plays no part in how an index wraps. -/
@[simp] theorem wrapPc_withMap (a : Byte) (c : Config) (m : OpMap) : wrapPc a (c.withMap m) = wrapPc a c := rfl

/-- An index fits the width of the program counter. -/
theorem wrapPc_lt (a : Byte) (c : Config) : (wrapPc a c).toNat < 2 ^ c.pcWidth := by
  rw [wrapPc, BitVec.toNat_ofNat]
  exact lt_of_le_of_lt (Nat.mod_le _ _) (Nat.mod_lt _ (Nat.two_pow_pos _))

end Sys2Proof.Machine
end

