-- ==== Sys2Proof/Laws/Registers.lean ====
section
/-! SUPPORT. Truncation, the register file and the register-number reduction; what a cell of the state reads as after a
write. -/

namespace Sys2Proof.Machine

theorem truncate_toNat (v : Int) : ((truncate v).toNat : Int) = v % 256 := by
  simp [truncate, BitVec.toNat_ofInt]
  omega

@[simp] theorem truncate_byteInt (b : Byte) : truncate (byteInt b) = b := by
  apply BitVec.eq_of_toNat_eq
  have h := truncate_toNat (byteInt b)
  have := b.isLt
  unfold byteInt at *
  omega

@[simp] theorem truncate_zero : truncate 0 = 0 := rfl

@[simp] theorem RegFile.read_write (f : RegFile) (r q : Reg) (b : Byte) :
    (f.write r b).read q = if q = r then b else f.read q := by
  cases r <;> cases q <;> rfl

theorem RegFile.ext_read {f g : RegFile} (h : ∀ r, f.read r = g.read r) : f = g := by
  cases f; cases g
  simpa [RegFile.mk.injEq] using
    ⟨h .op1, h .op2, h .res, h .r1, h .r2, h .r3, h .out⟩

theorem Reg.index_lt (r : Reg) : r.index < Config.numRegs := by cases r <;> decide

theorem Reg.index_injective {r q : Reg} (h : r.index = q.index) : r = q := by
  revert h; cases r <;> cases q <;> decide

@[simp] theorem Reg.ofIndex_index (i : Fin Config.numRegs) : (Reg.ofIndex i).index = i.val := by
  revert i; decide

/-- R14: the register a number names has the number's index modulo 7. -/
theorem rx_index (n : Nat) : (rx n).index = n % 7 := Reg.ofIndex_index _

@[simp] theorem State.writeReg_readReg (s : State) (r : Reg) (v : Int) (q : Reg) :
    (s.writeReg r v).readReg q = if q = r then truncate v else s.readReg q :=
  RegFile.read_write _ _ _ _

@[simp] theorem State.writeMem_readMem (s : State) (i : Nat) (v : Int) (j : Nat) (c : Config) :
    (s.writeMem i v c).readMem j c = if memIndex j c = memIndex i c then truncate v else s.readMem j c :=
  Memory.read_write _ _ _ _ _

end Sys2Proof.Machine
end

