-- ==== Sys2Proof/Laws/Operands.lean ====
section
/-! SUPPORT. What the operand forms can be and what a write through one does. -/

namespace Sys2Proof.Machine

/-- Everything a write of a cell changes outside the two arrays: the notification, and nothing else. -/
theorem State.writeLoc_rest (s : State) (l : Location) (v : Int) (c : Config) :
    (s.writeLoc l v c).pc = s.pc ∧ (s.writeLoc l v c).halted = s.halted ∧ (s.writeLoc l v c).error = s.error ∧
    (s.writeLoc l v c).faults = s.faults ∧ (s.writeLoc l v c).outLog = s.outLog ∧
    (s.writeLoc l v c).outCount = s.outCount ∧
    (s.writeLoc l v c).events = s.events ++ [writeEvent l (truncate v) c] := by
  cases l <;> simp [State.writeLoc, writeEvent]

@[simp] theorem State.writeLoc_pc (s : State) (l : Location) (v : Int) (c : Config) :
    (s.writeLoc l v c).pc = s.pc :=
  (s.writeLoc_rest l v c).1
@[simp] theorem State.writeLoc_halted (s : State) (l : Location) (v : Int) (c : Config) :
    (s.writeLoc l v c).halted = s.halted :=
  (s.writeLoc_rest l v c).2.1
@[simp] theorem State.writeLoc_error (s : State) (l : Location) (v : Int) (c : Config) :
    (s.writeLoc l v c).error = s.error :=
  (s.writeLoc_rest l v c).2.2.1
@[simp] theorem State.writeLoc_faults (s : State) (l : Location) (v : Int) (c : Config) :
    (s.writeLoc l v c).faults = s.faults :=
  (s.writeLoc_rest l v c).2.2.2.1
@[simp] theorem State.writeLoc_outLog (s : State) (l : Location) (v : Int) (c : Config) :
    (s.writeLoc l v c).outLog = s.outLog :=
  (s.writeLoc_rest l v c).2.2.2.2.1
@[simp] theorem State.writeLoc_outCount (s : State) (l : Location) (v : Int) (c : Config) :
    (s.writeLoc l v c).outCount = s.outCount :=
  (s.writeLoc_rest l v c).2.2.2.2.2.1
@[simp] theorem State.writeLoc_events (s : State) (l : Location) (v : Int) (c : Config) :
    (s.writeLoc l v c).events = s.events ++ [writeEvent l (truncate v) c] :=
  (s.writeLoc_rest l v c).2.2.2.2.2.2

@[simp] theorem State.writeLoc_readLoc (s : State) (l : Location) (v : Int) (c : Config) :
    (s.writeLoc l v c).readLoc l c = truncate v := by
  cases l <;> simp [State.writeLoc, State.readLoc]

theorem SameCell.refl (l : Location) (c : Config) : SameCell l l c := by cases l <;> rfl

/-- What any cell reads as after a write of another. -/
theorem State.writeLoc_readLoc_other (s : State) {l k : Location} (v : Int) {c : Config} (h : ¬ SameCell k l c) :
    (s.writeLoc l v c).readLoc k c = s.readLoc k c := by
  cases l <;> cases k <;> simp_all [SameCell, State.writeLoc, State.readLoc]

/-- A write of a cell leaves every other cell of both arrays alone. -/
theorem State.writeLoc_cells (s : State) (l : Location) (v : Int) : CellsSameBut s (s.writeLoc l v) [l] :=
  fun _ h => s.writeLoc_readLoc_other v (h l (by simp))

/-- A write of a cell keeps memory in canonical form. -/
theorem State.writeLoc_wf (s : State) (l : Location) (v : Int) {c : Config} (hc : 0 < c.memSize)
    (h : s.mem.wf c = true) : (s.writeLoc l v c).mem.wf c = true := by
  cases l with
  | reg d => exact h
  | mem i => exact Memory.write_wf hc _ _ h

/-- The opcode map plays no part in what a register number names. -/
@[simp] theorem regOf_withMap (n : Nibble) (c : Config) (m : OpMap) : regOf n (c.withMap m) = regOf n c := rfl

/-- R38, R40: what a unified address names. -/
theorem resolve8_cases (a : Byte) :
    (a.getLsbD 7 = false ∧ resolve8 a = .mem (a.extractLsb' 0 7).toNat) ∨
    (a.getLsbD 7 = true ∧ resolve8 a = .reg (rx (a.extractLsb' 0 7).toNat)) := by
  unfold resolve8
  cases h : a.getLsbD 7 <;> simp

/-- R43: a source mode names a literal, a cell, or nothing (mode 3 alone). -/
theorem sourceOperand_cases (m : Tag) (n : Nibble) (c : Config) :
    (m = 0#2 ∧ sourceOperand m n c = some (.literal (n.zeroExtend 8))) ∨
    (m = 1#2 ∧ sourceOperand m n c = some (.location (.reg (regOf n c)))) ∨
    (m = 2#2 ∧ sourceOperand m n c = some (.location (.mem n.toNat))) ∨
    (m = 3#2 ∧ sourceOperand m n c = none) := by
  have h : m = 0#2 ∨ m = 1#2 ∨ m = 2#2 ∨ m = 3#2 := by revert m; decide
  rcases h with rfl | rfl | rfl | rfl <;> simp [sourceOperand]

/-- R43: a destination mode names a cell (modes 1 and 2) or nothing. -/
theorem destOperand_cases (m : Tag) (n : Nibble) (c : Config) :
    (m = 1#2 ∧ destOperand m n c = some (.reg (regOf n c))) ∨
    (m = 2#2 ∧ destOperand m n c = some (.mem n.toNat)) ∨
    ((m = 0#2 ∨ m = 3#2) ∧ destOperand m n c = none) := by
  have h : m = 0#2 ∨ m = 1#2 ∨ m = 2#2 ∨ m = 3#2 := by revert m; decide
  rcases h with rfl | rfl | rfl | rfl <;> simp [destOperand]

end Sys2Proof.Machine
end

