-- ==== Sys2Proof/Laws/PerInstr.lean ====
section
/-! SUPPORT. Facts about every instruction as syntax, one lemma per constructor. -/

namespace Sys2Proof.Laws.EncodeShape

/-- The encoder writes as many bytes as the length table gives, and the opcode byte alone tells that length (R64,
R73). -/
def Statement (i : Instr) : Prop :=
  ∃ b imms, encode i = b :: imms ∧ imms.length = (opMap (highNibble b)).immCount ∧ imms.length + 1 = i.byteLength

theorem highNibble_opcodeByte (op operand : Nibble) : highNibble (opcodeByte op operand) = op := by
  revert op operand; decide

theorem nop (u : Nibble) : Statement (.nop u) := ⟨_, _, rfl, by rw [highNibble_opcodeByte]; rfl, rfl⟩
theorem add (u : Nibble) : Statement (.add u) := ⟨_, _, rfl, by rw [highNibble_opcodeByte]; rfl, rfl⟩
theorem sub (u : Nibble) : Statement (.sub u) := ⟨_, _, rfl, by rw [highNibble_opcodeByte]; rfl, rfl⟩
theorem inc (r : Nibble) : Statement (.inc r) := ⟨_, _, rfl, by rw [highNibble_opcodeByte]; rfl, rfl⟩
theorem cpy (sm dm : Tag) (src dst : Nibble) : Statement (.cpy sm dm src dst) :=
  ⟨_, _, rfl, by rw [highNibble_opcodeByte]; rfl, rfl⟩
theorem mov (sm dm : Tag) (src dst : Nibble) : Statement (.mov sm dm src dst) :=
  ⟨_, _, rfl, by rw [highNibble_opcodeByte]; rfl, rfl⟩
theorem ld (r : Nibble) (imm : Byte) : Statement (.ld r imm) := ⟨_, _, rfl, by rw [highNibble_opcodeByte]; rfl, rfl⟩
theorem lda (r : Nibble) (a : Byte) : Statement (.lda r a) := ⟨_, _, rfl, by rw [highNibble_opcodeByte]; rfl, rfl⟩
theorem st (r : Nibble) (a : Byte) : Statement (.st r a) := ⟨_, _, rfl, by rw [highNibble_opcodeByte]; rfl, rfl⟩
theorem sta (u src ptr : Nibble) : Statement (.sta u src ptr) :=
  ⟨_, _, rfl, by rw [highNibble_opcodeByte]; rfl, rfl⟩
theorem jmp (r : Nibble) : Statement (.jmp r) := ⟨_, _, rfl, by rw [highNibble_opcodeByte]; rfl, rfl⟩
theorem hlt (u : Nibble) : Statement (.hlt u) := ⟨_, _, rfl, by rw [highNibble_opcodeByte]; rfl, rfl⟩
theorem je (r : Nibble) : Statement (.je r) := ⟨_, _, rfl, by rw [highNibble_opcodeByte]; rfl, rfl⟩
theorem jne (r : Nibble) : Statement (.jne r) := ⟨_, _, rfl, by rw [highNibble_opcodeByte]; rfl, rfl⟩
theorem cjp (code a b : Nibble) : Statement (.cjp code a b) :=
  ⟨_, _, rfl, by rw [highNibble_opcodeByte]; rfl, rfl⟩
theorem prl (u : Nibble) : Statement (.prl u) := ⟨_, _, rfl, by rw [highNibble_opcodeByte]; rfl, rfl⟩

end Sys2Proof.Laws.EncodeShape
end

