-- ==== Sys2Proof/Laws/Step.lean ====
section
/-! SUPPORT. What a fetch does, what an instruction can do to the state it acts on, and when a step answers. Cite these
instead of unfolding `step` and `exec`. -/

namespace Sys2Proof.Machine

/-! ### Fetch -/

@[simp] theorem State.fetchByte_fst (s : State) (c : Config) : (s.fetchByte c).1 = s.readMem s.pc.toNat c := rfl
@[simp] theorem State.fetchByte_snd (s : State) (c : Config) : (s.fetchByte c).2 = s.jumpTo (s.pc + 1) c := rfl

@[simp] theorem State.fetchBytes_zero (s : State) (c : Config) : s.fetchBytes 0 c = ([], s) := rfl

theorem State.fetchBytes_succ (n : Nat) (s : State) (c : Config) :
    s.fetchBytes (n + 1) c =
      (s.readMem s.pc.toNat c :: ((s.jumpTo (s.pc + 1) c).fetchBytes n c).1,
       ((s.jumpTo (s.pc + 1) c).fetchBytes n c).2) := rfl

/-- The bytes at an index depend on memory alone. -/
theorem State.bytesFrom_congr {s t : State} (h : t.mem = s.mem) (n : Nat) (i : Byte) :
    t.bytesFrom n i = s.bytesFrom n i := by
  induction n generalizing i with
  | zero => rfl
  | succ n ih => simp only [State.bytesFrom, State.readMem, h, ih]

/-- The notifications of a fetch carry no emission. -/
@[simp] theorem fetchEvents_emission (n : Nat) (i : Byte) : (fetchEvents n i).filterMap Event.emission? = [] := by
  induction n generalizing i with
  | zero => rfl
  | succ n ih => rw [fetchEvents, List.filterMap_cons, ih]; rfl

theorem pc_add_succ (a : Byte) (n : Nat) : a + 1 + BitVec.ofNat 8 n = a + BitVec.ofNat 8 (n + 1) := by
  apply BitVec.eq_of_toNat_eq
  simp
  omega

/-- Everything a fetch of `n` bytes does: the bytes it gives, the `pc` it leaves, the notifications it makes, and that
nothing else changes. -/
theorem State.fetchBytes_spec (n : Nat) (s : State) :
    (s.fetchBytes n).1 = s.bytesFrom n s.pc ∧
    (s.fetchBytes n).2 =
      { s with pc := s.pc + BitVec.ofNat 8 n, events := s.events ++ fetchEvents n s.pc } := by
  induction n generalizing s with
  | zero => simp [State.bytesFrom, fetchEvents]
  | succ n ih =>
    obtain ⟨h1, h2⟩ := ih (s.jumpTo (s.pc + 1))
    rw [State.fetchBytes_succ, h1, h2]
    rw [State.jumpTo_pc, wrapPc_hardware]
    refine ⟨?_, ?_⟩
    · simp only [State.bytesFrom]
      exact congrArg (_ :: ·) (State.bytesFrom_congr (s := s) (t := s.jumpTo (s.pc + 1)) rfl n (s.pc + 1))
    · simp only [State.jumpTo, wrapPc_hardware, fetchEvents, pc_add_succ, List.append_assoc, List.singleton_append]

/-- The state an instruction acts on, written out. -/
theorem State.afterFetch_eq (s : State) (n : Nat) :
    s.afterFetch n =
      { s with pc := s.pc + BitVec.ofNat 8 n, events := s.events ++ fetchEvents n s.pc, error := none } := by
  rw [State.afterFetch, (State.fetchBytes_spec n s.clearError).2]
  rfl

@[simp] theorem State.afterFetch_regs (s : State) (n : Nat) : (s.afterFetch n).regs = s.regs := by
  rw [State.afterFetch_eq]
@[simp] theorem State.afterFetch_pc (s : State) (n : Nat) : (s.afterFetch n).pc = s.pc + BitVec.ofNat 8 n := by
  rw [State.afterFetch_eq]
@[simp] theorem State.afterFetch_halted (s : State) (n : Nat) : (s.afterFetch n).halted = s.halted := by
  rw [State.afterFetch_eq]
@[simp] theorem State.afterFetch_mem (s : State) (n : Nat) : (s.afterFetch n).mem = s.mem := by
  rw [State.afterFetch_eq]
@[simp] theorem State.afterFetch_outLog (s : State) (n : Nat) : (s.afterFetch n).outLog = s.outLog := by
  rw [State.afterFetch_eq]
@[simp] theorem State.afterFetch_outCount (s : State) (n : Nat) : (s.afterFetch n).outCount = s.outCount := by
  rw [State.afterFetch_eq]
@[simp] theorem State.afterFetch_events (s : State) (n : Nat) :
    (s.afterFetch n).events = s.events ++ fetchEvents n s.pc := by
  rw [State.afterFetch_eq]
@[simp] theorem State.afterFetch_error (s : State) (n : Nat) : (s.afterFetch n).error = none := by
  rw [State.afterFetch_eq]
@[simp] theorem State.afterFetch_faults (s : State) (n : Nat) : (s.afterFetch n).faults = s.faults := by
  rw [State.afterFetch_eq]
@[simp] theorem State.afterFetch_readReg (s : State) (n : Nat) (r : Reg) :
    (s.afterFetch n).readReg r = s.readReg r := by
  rw [State.afterFetch_eq]; rfl
@[simp] theorem State.afterFetch_readMem (s : State) (n : Nat) (i : Nat) :
    (s.afterFetch n).readMem i = s.readMem i := by
  rw [State.afterFetch_eq]; rfl

/-- What a fetch of any number of bytes leaves alone under any configuration, and that the index keeps to its width. -/
theorem State.fetchBytes_frame (n : Nat) (s : State) (c : Config) :
    (s.fetchBytes n c).2.regs = s.regs ∧ (s.fetchBytes n c).2.halted = s.halted ∧ (s.fetchBytes n c).2.mem = s.mem ∧
    (s.fetchBytes n c).2.outLog = s.outLog ∧ (s.fetchBytes n c).2.outCount = s.outCount ∧
    (s.fetchBytes n c).2.error = s.error ∧ (s.fetchBytes n c).2.faults = s.faults ∧
    (s.fetchBytes n c).2.events.filterMap Event.emission? = s.events.filterMap Event.emission? ∧
    (s.pc.toNat < 2 ^ c.pcWidth → (s.fetchBytes n c).2.pc.toNat < 2 ^ c.pcWidth) := by
  induction n generalizing s with
  | zero => simp
  | succ n ih =>
    obtain ⟨h1, h2, h3, h4, h5, h6, h7, h8, h9⟩ := ih (s.jumpTo (s.pc + 1) c)
    rw [State.fetchBytes_succ]
    exact ⟨h1, h2, h3, h4, h5, h6, h7, h8.trans (by simp [Event.emission?]), fun _ => h9 (wrapPc_lt _ _)⟩

/-- A fetch does not depend on the opcode map. -/
@[simp] theorem State.fetchBytes_withMap (n : Nat) (s : State) (c : Config) (m : OpMap) :
    s.fetchBytes n (c.withMap m) = s.fetchBytes n c := by
  induction n generalizing s with
  | zero => rfl
  | succ n ih => rw [State.fetchBytes_succ, State.fetchBytes_succ, ih]; rfl

/-- Everything the fetch and decode of one instruction does: what it decodes, and the state the instruction acts on. -/
theorem State.fetchDecode_spec (m : OpMap) (s : State) :
    s.clearError.fetchDecode (hardware.withMap m) =
      (assemble (m s.nextOpcode) (lowNibble (s.readMem s.pc.toNat))
        (s.bytesFrom (m s.nextOpcode).immCount (s.pc + 1)),
       s.afterFetch ((m s.nextOpcode).immCount + 1)) := by
  have hbytes := (State.fetchBytes_spec (m s.nextOpcode).immCount (s.clearError.jumpTo (s.pc + 1))).1
  rw [State.bytesFrom_congr (s := s) (t := s.clearError.jumpTo (s.pc + 1)) rfl, State.jumpTo_pc, wrapPc_hardware] at hbytes
  rw [← hbytes, State.fetchDecode]
  simp only [State.fetchBytes_withMap]
  rfl

/-! ### What an instruction can do -/

/-- The shapes of an instruction's effect on the state it acts on, under a configuration. -/
inductive Effect (c : Config) (s : State) : State → Prop
  | nothing : Effect c s s
  | write (l : Location) (v : Int) : Effect c s (s.writeLoc l v c)
  | writeTwo (l k : Location) (v w : Int) : Effect c s ((s.writeLoc l v c).writeLoc k w c)
  | raise (sm dm : Tag) (h : movBadMode sm dm) : Effect c s (s.raise (.invalidAddressingMode sm dm))
  | jump (a : Byte) : Effect c s (s.jumpTo a c)
  | halt : Effect c s (s.halt c)
  | printLast : Effect c s (s.printOne c)
  | printMore : Effect c s ((s.printOne c).jumpTo ((s.printOne c).pc - 1) c)
  | emit (k : OutKind) (b : Byte) : Effect c s (s.emit k b)

/-- CPY either copies between two cells or raises. -/
theorem execCpy_effect (c : Config) (sm dm : Tag) (src dst : Nibble) (s : State) :
    ∃ t, execCpy sm dm src dst s c = .next t ∧ Effect c s t := by
  rcases sourceOperand_cases sm src c with ⟨rfl, h⟩ | ⟨rfl, h⟩ | ⟨rfl, h⟩ | ⟨rfl, h⟩ <;>
    rcases destOperand_cases dm dst c with ⟨rfl, k⟩ | ⟨rfl, k⟩ | ⟨k', k⟩ <;>
    simp only [execCpy, h, k]
  all_goals first
    | exact ⟨_, rfl, .write _ _⟩
    | exact ⟨_, rfl, .raise _ _ (by unfold movBadMode; simp_all)⟩

/-- MOV either copies and zeroes or raises. -/
theorem execMov_effect (c : Config) (sm dm : Tag) (src dst : Nibble) (s : State) :
    ∃ t, execMov sm dm src dst s c = .next t ∧ Effect c s t := by
  rcases sourceOperand_cases sm src c with ⟨rfl, h⟩ | ⟨rfl, h⟩ | ⟨rfl, h⟩ | ⟨rfl, h⟩ <;>
    rcases destOperand_cases dm dst c with ⟨rfl, k⟩ | ⟨rfl, k⟩ | ⟨k', k⟩ <;>
    simp only [execMov, h, k]
  all_goals first
    | exact ⟨_, rfl, .writeTwo _ _ _ _⟩
    | exact ⟨_, rfl, .raise _ _ (by unfold movBadMode; simp_all)⟩

/-- Everything an instruction can do, under any configuration: it answers a next state of one of the shapes of
`Effect`. -/
theorem execWith_effect (c : Config) (i : Instr) (s : State) : ∃ t, execWith c i s = .next t ∧ Effect c s t := by
  cases i with
  | nop u => exact ⟨_, rfl, .nothing⟩
  | add u => exact ⟨_, rfl, .write (.reg .res) _⟩
  | sub u => exact ⟨_, rfl, .write (.reg .res) _⟩
  | inc r => exact ⟨_, rfl, .write (.reg (regOf r c)) _⟩
  | cpy sm dm src dst => exact execCpy_effect c sm dm src dst s
  | mov sm dm src dst => exact execMov_effect c sm dm src dst s
  | ld r imm => exact ⟨_, rfl, .write (.reg (regOf r c)) _⟩
  | lda r addr => exact ⟨_, rfl, .write (.reg (regOf r c)) _⟩
  | st r addr => exact ⟨_, rfl, .write (resolve8 addr c) _⟩
  | sta u src ptr => exact ⟨_, rfl, .write (resolve8 (s.readReg (regOf ptr c)) c) _⟩
  | jmp r => exact ⟨_, rfl, .jump _⟩
  | hlt u => exact ⟨_, rfl, .halt⟩
  | je r =>
    refine ⟨_, rfl, ?_⟩
    split
    · exact .jump _
    · exact .nothing
  | jne r =>
    refine ⟨_, rfl, ?_⟩
    split
    · exact .nothing
    · exact .jump _
  | cjp code a b =>
    refine ⟨_, rfl, ?_⟩
    split
    · exact .jump _
    · exact .nothing
  | prl u =>
    refine ⟨_, rfl, ?_⟩
    split
    · exact .printLast
    · exact .printMore

/-- `exec` is this hardware's case of `execWith`: both run the same meanings. -/
theorem exec_eq_execWith (i : Instr) (s : State) : exec i s = execWith hardware i s := by cases i <;> rfl

/-- Everything an instruction of this hardware can do. -/
theorem exec_effect (i : Instr) (s : State) : ∃ t, exec i s = .next t ∧ Effect hardware s t := by
  rw [exec_eq_execWith]; exact execWith_effect hardware i s

/-- Everything that what was decoded can do, a surplus variant included. -/
theorem execDecoded_effect (c : Config) (d : Decoded) (s : State) :
    ∃ t, execDecoded d s c = .next t ∧ Effect c s t := by
  match d with
  | .core i => exact execWith_effect c i s
  | .surplus (.jeq u a b target) =>
    refine ⟨_, rfl, ?_⟩
    split
    · exact .jump _
    · exact .nothing
  | .surplus (.prt u) => exact ⟨_, rfl, .emit _ _⟩
  | .surplus (.prd u) => exact ⟨_, rfl, .emit _ _⟩

/-! ### The step -/

/-- A halted machine makes no step, under any configuration. -/
theorem stepWith_of_halted (c : Config) {s : State} (h : s.halted = true) : stepWith c s = .fault .cpuHalted := by
  simp [stepWith, h]

theorem step_of_halted {s : State} (h : s.halted = true) : step s = .fault .cpuHalted := stepWith_of_halted hardware h

/-- A running machine with any opcode map runs what it fetched and decoded. -/
theorem stepWith_of_running (m : OpMap) {s : State} (h : s.halted = false) :
    stepWith (hardware.withMap m) s =
      execDecoded (assemble (m s.nextOpcode) (lowNibble (s.readMem s.pc.toNat))
        (s.bytesFrom (m s.nextOpcode).immCount (s.pc + 1))) (s.afterFetch ((m s.nextOpcode).immCount + 1))
        (hardware.withMap m) := by
  simp [stepWith, h, State.fetchDecode_spec]

/-- Everything a step of a running machine can do under any configuration: it fetches some bytes and then has one of the
shapes of `Effect`. -/
theorem stepWith_effect (c : Config) {s : State} (h : s.halted = false) :
    ∃ n t, stepWith c s = .next t ∧ Effect c (s.clearError.fetchBytes n c).2 t := by
  obtain ⟨t, h1, h2⟩ := execDecoded_effect c (s.clearError.fetchDecode c).1 (s.clearError.fetchDecode c).2
  refine ⟨(decodeOpcode c.opMap (s.readMem s.pc.toNat c)).1.immCount + 1, t, ?_, ?_⟩
  · simp [stepWith, h, h1]
  · exact h2

/-- If a step answers a next state, the machine was running. -/
theorem running_of_step {s t : State} (h : step s = .next t) : s.halted = false := by
  cases hs : s.halted with
  | false => rfl
  | true => rw [step_of_halted hs] at h; cases h

/-- A run of one step more than `n` is that step and then a run of `n`. -/
theorem core_run_succ {s t : State} (h : step s = .next t) (n : Nat) :
    Sys2Proof.core.run (n + 1) s = Sys2Proof.core.run n t := by
  have hc : Sys2Proof.core.step s = .next t := h
  simp only [Host.Core.run, hc]

end Sys2Proof.Machine
end

