-- ==== Sys2Proof/Tests/Slice0.lean ====
section
/-! SUPPORT. The model's own tests: expected values are those of spec/95_test_vectors.md (its vector is named) or written
out from the spec's rule; and, for each statement that has hypotheses, a state and operands that meet them. -/

namespace Sys2Proof.Tests

open Sys2Proof.Machine

/-- A running state with a memory and registers, otherwise as after power-on. -/
def at' (pc : Byte) (mem : Memory) (regs : RegFile) : State := { State.powerOn mem with pc := pc, regs := regs }

/-- Registers in index order: OP1, OP2, RES, R1, R2, R3, OUT. -/
def regs (a b c d e f g : Byte) : RegFile := ⟨a, b, c, d, e, f, g⟩

/-- What a test looks at after one step: a part of the next state, if there is one. -/
def seen {α : Type} (part : State → α) (s : State) : Option α :=
  match step s with
  | .next t => some (part t)
  | .fault _ => none
  | .refused _ => none

/-! ### Well-formedness: an ill-formed term for each check -/

theorem test_wf_refuses_cpy_source_mode_three : (Instr.cpy 3 1 0 0).wellFormed = false := by decide
theorem test_wf_refuses_cpy_destination_mode_zero : (Instr.cpy 1 0 0 0).wellFormed = false := by decide
theorem test_wf_refuses_cpy_destination_mode_three : (Instr.cpy 1 3 0 0).wellFormed = false := by decide
theorem test_wf_refuses_mov_source_mode_zero : (Instr.mov 0 1 0 0).wellFormed = false := by decide
theorem test_wf_refuses_mov_source_mode_three : (Instr.mov 3 1 0 0).wellFormed = false := by decide
theorem test_wf_refuses_mov_destination_mode_zero : (Instr.mov 1 0 0 0).wellFormed = false := by decide
theorem test_wf_refuses_cjp_code_zero : (Instr.cjp 0 1 2).wellFormed = false := by decide
theorem test_wf_refuses_cjp_code_seven : (Instr.cjp 7 1 2).wellFormed = false := by decide
theorem test_wf_accepts_cpy_literal_to_register : (Instr.cpy 0 1 9 3).wellFormed = true := by decide

/-! ### Decoding, words written out from the encodings (spec/95_test_vectors.md 2.1, spec/30_encoding.md R71) -/

theorem test_decode_nop : decode [0x0F#8] = .ok (.nop 15, []) := rfl
theorem test_decode_add : decode [0x1F#8, 0xAA#8] = .ok (.add 15, [0xAA#8]) := rfl
theorem test_decode_sub : decode [0x2A#8] = .ok (.sub 10, []) := rfl
theorem test_decode_inc : decode [0x36#8] = .ok (.inc 6, []) := rfl
theorem test_decode_cpy : decode [0x46#8, 0x3F#8] = .ok (.cpy 1 2 3 15, []) := rfl
theorem test_decode_mov : decode [0x59#8, 0xF4#8] = .ok (.mov 2 1 15 4, []) := rfl
theorem test_decode_ld : decode [0x63#8, 0x2A#8] = .ok (.ld 3 42, []) := rfl
theorem test_decode_lda : decode [0x74#8, 0x14#8] = .ok (.lda 4 20, []) := rfl
theorem test_decode_st : decode [0x82#8, 0x28#8] = .ok (.st 2 40, []) := rfl
theorem test_decode_sta : decode [0x9C#8, 0x34#8] = .ok (.sta 12 3 4, []) := rfl
theorem test_decode_jmp : decode [0xA3#8] = .ok (.jmp 3, []) := rfl
theorem test_decode_hlt : decode [0xB7#8] = .ok (.hlt 7, []) := rfl
theorem test_decode_je : decode [0xC3#8] = .ok (.je 3, []) := rfl
theorem test_decode_jne : decode [0xD3#8] = .ok (.jne 3, []) := rfl
theorem test_decode_cjp : decode [0xE3#8, 0x34#8] = .ok (.cjp 3 3 4, []) := rfl
theorem test_decode_prl : decode [0xFF#8] = .ok (.prl 15, []) := rfl
theorem test_decode_refuses_missing_immediate : decode [0x63#8] = .error .truncated := rfl
theorem test_decode_refuses_no_bytes : decode [] = .error .truncated := rfl

/-- The opcode byte of a two-byte row is the high byte of its word (notes/assumptions/6.md). -/
theorem test_table_word_cpy : decodeTableWord 16 0x4536 = some (.cpy 1 1 3 6) := rfl
theorem test_table_word_jmp : decodeTableWord 8 0xA3 = some (.jmp 3) := rfl
theorem test_placed_word_runs_first :
    seen (fun t => t.readReg .r1) (State.reset.withFetchWord 16 0x632A) = some 42 := by decide

/-! ### One step of each instruction (spec/95_test_vectors.md 2.2 to 2.7) -/

theorem test_add_wraps : -- V-ADD-1
    seen (fun t => (t.readReg .res, t.pc, t.events)) (at' 0 [(0, 0x10)] (regs 200 100 0 0 0 0 0)) =
      some (44, 1, [.pcChanged 0 1, .regChanged .res 44]) := by decide
theorem test_add_ignores_operand : -- V-ADD-5
    seen (fun t => t.readReg .res) (at' 0 [(0, 0x1F)] (regs 255 1 9 0 0 0 0)) = some 0 := by decide
theorem test_sub_negative : -- V-SUB-1
    seen (fun t => t.readReg .res) (at' 0 [(0, 0x20)] (regs 5 10 0 0 0 0 0)) = some 251 := by decide
theorem test_sub_borrow : -- V-SUB-3
    seen (fun t => t.readReg .res) (at' 0 [(0, 0x20)] (regs 0 255 0 0 0 0 0)) = some 1 := by decide
theorem test_inc_wraps : -- V-INC-1
    seen (fun t => t.readReg .r1) (at' 0 [(0, 0x33)] (regs 0 0 0 255 0 0 0)) = some 0 := by decide
theorem test_inc_aliases : -- V-INC-5
    seen (fun t => t.events) (at' 0 [(0, 0x3D)] (regs 0 0 0 0 0 0 41)) =
      some [.pcChanged 0 1, .regChanged .out 42] := by decide
theorem test_cpy_memory_to_memory : -- table of 2.3, operand nibble 10
    seen (fun t => (t.readMem 2, t.readMem 1, t.pc)) (at' 0 [(0, 0x4A), (1, 0x12)] (regs 0 77 0 0 0 0 0)) =
      some (18, 18, 2) := by decide
theorem test_cpy_faults : -- V-CPY-4
    seen (fun t => t) (at' 0 [(0, 0x40), (1, 0x12)] (regs 1 2 3 4 5 6 7)) =
      some { at' 2 [(0, 0x40), (1, 0x12)] (regs 1 2 3 4 5 6 7) with
        error := some (.invalidAddressingMode 0 0), faults := [.invalidAddressingMode 0 0], events := [.pcChanged 0 1, .pcChanged 1 2] } := by decide
theorem test_mov_memory_to_register : -- V-MOV-1
    seen (fun t => (t.readReg .r1, t.readMem 9, t.events)) (at' 0 [(0, 0x59), (1, 0x93), (9, 42)] RegFile.zero) =
      some (42, 0, [.pcChanged 0 1, .pcChanged 1 2, .regChanged .r1 42, .memChanged 9 0]) := by decide
theorem test_mov_onto_itself : -- V-MOV-2
    seen (fun t => (t.readReg .r1, t.events)) (at' 0 [(0, 0x55), (1, 0x3A)] (regs 0 0 0 9 0 0 0)) =
      some (0, [.pcChanged 0 1, .pcChanged 1 2, .regChanged .r1 9, .regChanged .r1 0]) := by decide
theorem test_ld_wraps_at_top : -- V-LD-3
    seen (fun t => (t.readReg .r1, t.pc, t.events)) (at' 255 [(0, 0x2A), (127, 0x63)] RegFile.zero) =
      some (42, 1, [.pcChanged 255 0, .pcChanged 0 1, .regChanged .r1 42]) := by decide
theorem test_lda_register_address : -- V-LDA-3
    seen (fun t => t.readReg .r1) (at' 0 [(0, 0x73), (1, 0x8D)] (regs 0 0 0 0 0 0 33)) = some 33 := by decide
theorem test_lda_own_opcode : -- V-LDA-5
    seen (fun t => t.readReg .r1) (at' 0 [(0, 0x73)] RegFile.zero) = some 0x73 := by decide
theorem test_st_memory : -- V-ST-1
    seen (fun t => (t.readMem 40, t.events)) (at' 0 [(0, 0x82), (1, 0x28)] (regs 0 0 7 0 0 0 0)) =
      some (7, [.pcChanged 0 1, .pcChanged 1 2, .memChanged 40 7]) := by decide
theorem test_st_register : -- V-ST-2
    seen (fun t => t.readReg .out) (at' 0 [(0, 0x83), (1, 0x86)] (regs 0 0 0 9 0 0 0)) = some 9 := by decide
theorem test_sta_memory : -- V-STA-1
    seen (fun t => t.readMem 50) (at' 0 [(0, 0x90), (1, 0x34)] (regs 0 0 0 5 50 0 0)) = some 5 := by decide
theorem test_sta_pointer_to_itself : -- V-STA-2
    seen (fun t => t.readReg .r2) (at' 0 [(0, 0x90), (1, 0x34)] (regs 0 0 0 5 0x84 0 0)) = some 5 := by decide
theorem test_jmp_high_target : -- V-JMP-2
    seen (fun t => (t.pc, t.bytesAtPc 1)) (at' 0 [(0, 0xA3), (72, 0xB0)] (regs 0 0 0 200 0 0 0)) =
      some (200, [0xB0]) := by decide
theorem test_je_taken : -- V-JE-1
    seen (fun t => t.pc) (at' 0 [(0, 0xC3)] (regs 9 9 0 40 0 0 0)) = some 40 := by decide
theorem test_je_not_taken : -- V-JE-2
    seen (fun t => (t.pc, t.events)) (at' 0 [(0, 0xC3)] (regs 9 8 0 40 0 0 0)) = some (1, [.pcChanged 0 1]) := by decide
theorem test_jne_taken : -- V-JNE-1
    seen (fun t => t.pc) (at' 0 [(0, 0xD3)] (regs 9 8 0 40 0 0 0)) = some 40 := by decide
theorem test_jne_not_taken : -- V-JNE-2
    seen (fun t => t.pc) (at' 0 [(0, 0xD3)] (regs 9 9 0 40 0 0 0)) = some 1 := by decide
theorem test_cjp_table : -- V-CJP-0 to V-CJP-15, the column (255,0): unsigned order
    (List.range 16).map (fun c => condition (BitVec.ofNat 4 c) 255 0) =
      [false, false, true, false, true, false, true, false, false, false, false, false, false, false, false, false] := by
  decide
theorem test_cjp_lt_taken : -- V-CJP-3
    seen (fun t => t.pc) (at' 0 [(0, 0xE3), (1, 0x34)] (regs 0 0 20 2 5 0 0)) = some 20 := by decide
theorem test_prl_first_iteration : -- V-PRL-1, step 1
    seen (fun t => (t.outLog, t.readReg .op1, t.pc, t.events))
        (at' 4 [(4, 0xF0), (30, 0x41), (31, 0x42)] (regs 30 32 0 0 0 0 0)) =
      some ([⟨.chr, 0x41⟩], 31, 4,
        [.pcChanged 4 5, .output .chr 0x41, .regChanged .op1 31, .pcChanged 5 4]) := by decide
theorem test_prl_reads_its_pointer : -- V-PRL-4
    seen (fun t => (t.outLog, t.outCount, t.readReg .op1, t.pc)) (at' 0 [(0, 0xF0)] (regs 0x80 0x81 0 0 0 0 0)) =
      some ([⟨.chr, 0x80⟩], 1, 0x81, 1) := by decide
theorem test_nop : -- V-NOP-1
    seen (fun t => t) (at' 1 [] RegFile.zero) = some { at' 2 [] RegFile.zero with events := [.pcChanged 1 2] } := by
  decide
theorem test_hlt : -- V-HLT-1
    seen (fun t => (t.halted, t.currentIndex, t.events)) (at' 0 [(0, 0xB0)] RegFile.zero) =
      some (true, -1, [.pcChanged 0 1, .pcChanged 1 (-1)]) := by decide
theorem test_halted_step_refused : step { State.reset with halted := true } = .fault .cpuHalted := rfl -- V-HLT-2

/-! ### Host side -/

theorem test_reset_from_halted : -- V-HLT-4
    (engineReset { at' 1 [(0, 0xB0)] (regs 1 2 3 4 5 6 7) with halted := true }).events =
      [.pcChanged (-1) 0, .regsReset] := by decide
theorem test_program_text : -- R74 and program P1
    programBytes ["00010000 // ADD".toList, "0000 0000# NOP".toList, "10110000%HLT".toList] =
      .ok [0x10#8, 0x00#8, 0xB0#8] := by decide
theorem test_program_text_bad_line : -- R74
    programBytes ["00010000".toList, "0002".toList] = .error (.invalidProgramFormat 2) := by decide
/-- PRT under a map that reaches it (R117's example, with the opcode nibble 0xF). -/
theorem test_prt_under_another_map :
    (match stepWith (hardware.withMap fun n => if n = 0xF#4 then .prt else opMap n) (at' 0 [(0, 0xF0)] (regs 0 0 0 0 0 0 200)) with
      | .next t => some (t.outLog, t.outCount, t.pc)
      | .fault _ => none
      | .refused _ => none) = some ([⟨.num, 200⟩], 1, 1) := by decide

/-! ### Witnesses: states and operands that meet a statement's hypotheses, each clause at a boundary -/

/-- A one-byte program: a running state whose next byte is `b`. -/
def one (b : Byte) : State := at' 0 [(0, b)] (regs 1 2 3 4 5 6 7)

theorem witness_EncodeOfDecodeIsIdentity : decode [0xEF#8, 0xFF#8, 0x07#8] = .ok (.cjp 15 15 15, [0x07#8]) := rfl

theorem witness_StepRunsDecodedInstruction :
    (at' 255 [(0, 0x2A), (127, 0x6F)] RegFile.zero).halted = false ∧
    decode ((at' 255 [(0, 0x2A), (127, 0x6F)] RegFile.zero).bytesAtPc 2) = .ok (.ld 15 42, []) := ⟨rfl, rfl⟩

theorem witness_OnlyAHaltedMachineMakesNoStep :
    { State.reset with halted := true }.halted = true ∧ State.reset.halted = false := ⟨rfl, rfl⟩

theorem witness_PlacedWordIsRunNext :
    16 ≤ 16 ∧ decodeTableWord 16 0xEFFF = some (.cjp 15 15 15) ∧ 0 ≤ 16 ∧ decodeTableWord 0 0 = some (.nop 0) :=
  ⟨le_rfl, rfl, Nat.zero_le _, rfl⟩

theorem witness_CpyCopiesSourceToDestination :
    (((0 : Tag) = 0#2 ∧ (15 : Byte).toNat = (15 : Nibble).toNat) ∧
      (1 : Tag) = 1#2 ∧ Location.reg .op2 = .reg (regOf 15)) ∧
    (((1 : Tag) = 1#2 ∧ (1 : Byte) = (one 0).readReg (regOf 0)) ∧ (2 : Tag) = 2#2 ∧ Location.mem 15 = .mem (15 : Nibble).toNat) ∧
    (((2 : Tag) = 2#2 ∧ (0x46 : Byte) = (one 0x46).readMem (0 : Nibble).toNat) ∧
      (2 : Tag) = 2#2 ∧ Location.mem 0 = .mem (0 : Nibble).toNat) ∧
    cpyBadMode 3 1 ∧ cpyBadMode 0 0 ∧ cpyBadMode 2 3 := by
  unfold cpyBadMode; decide

theorem witness_MovCopiesThenZeroesTheSource :
    (((1 : Tag) = 1#2 ∧ Location.reg .op1 = .reg (regOf 0)) ∧ (1 : Tag) = 1#2 ∧ Location.reg .op1 = .reg (regOf 7)) ∧
    (((2 : Tag) = 2#2 ∧ Location.mem 15 = .mem (15 : Nibble).toNat) ∧
      (2 : Tag) = 2#2 ∧ Location.mem 0 = .mem (0 : Nibble).toNat ∧ Location.mem 0 ≠ .mem 15) ∧
    movBadMode 0 1 ∧ movBadMode 3 2 ∧ movBadMode 1 0 ∧ movBadMode 2 3 := by
  unfold movBadMode; decide

theorem witness_StepReportsAnErrorExactlyForBadModeBytes :
    (∃ t, step (one 0x4F) = .next t ∧ t.error ≠ none ∧ (one 0x4F).nextOpcode = 4#4) ∧
    (∃ t, step (one 0x51) = .next t ∧ t.error = some (.invalidAddressingMode 0 1)) ∧
    ∃ t, step (one 0x41) = .next t ∧ t.error = none := by
  refine ⟨⟨_, rfl, by decide, by decide⟩, ⟨_, rfl, by decide⟩, _, rfl, by decide⟩

theorem witness_UnifiedAddressMap :
    (0x7F : Byte).toNat < 128 ∧ 128 ≤ (0x80 : Byte).toNat ∧ 128 ≤ (0xFF : Byte).toNat := by decide

theorem witness_CanonicalMemoryIsDeterminedByItsReads :
    Memory.wf [(0, 1), (127, 255)] = true ∧ ∀ a < 128, Memory.read [(0, 1), (127, 255)] a = Memory.read [(0, 1), (127, 255)] a :=
  ⟨by decide, fun _ _ => rfl⟩

theorem witness_JneJumpsIffOperandsDiffer :
    ∃ t t', exec (.je 3) (one 0) = .next t ∧ exec (.jne 3) (one 0) = .next t' := ⟨_, _, rfl, rfl⟩

theorem witness_NopChangesNothingButTheFetch :
    (one 0x0F).halted = false ∧ (one 0x0F).readMem (one 0x0F).pc.toNat = BitVec.ofNat 8 (15 : Nibble).toNat := by decide

theorem witness_PrlLoopPrintsTheWholeRange : -- n = 1; and OP1 = OP2 with n = 256, pointers at 127, 128, 129 and 255
    (∃ s : State, s.halted = false ∧ s.nextOpcode = 0xF#4 ∧ ((s.readReg .op1).toNat + 1) % 256 = (s.readReg .op2).toNat) ∧
    ∃ s : State, s.halted = false ∧ s.nextOpcode = 0xF#4 ∧
      ((s.readReg .op1).toNat + 256) % 256 = (s.readReg .op2).toNat ∧ 127 = ((s.readReg .op1).toNat + 127) % 256 ∧
      128 = ((s.readReg .op1).toNat + 128) % 256 ∧ (128 - 128) % 7 = 0 ∧
      129 = ((s.readReg .op1).toNat + 129) % 256 ∧ Reg.op2 ≠ .op1 ∧ Reg.op2.index = (129 - 128) % 7 ∧
      255 = ((s.readReg .op1).toNat + 255) % 256 ∧ Reg.op2.index = (255 - 128) % 7 :=
  ⟨⟨at' 0 [(0, 0xF0)] (regs 255 0 0 0 0 0 0), by decide⟩, ⟨at' 0 [(0, 0xF0)] RegFile.zero, by decide⟩⟩

/-- The statements about every step: a step of each kind they tell apart. -/
theorem witness_OnlyFetchJumpAndPrlMoveThePc :
    (∃ t, step (one 0xA3) = .next t ∧ t.halted = false ∧ t.pc = 4) ∧
    (∃ t, step (one 0x10) = .next t ∧ t.halted = false ∧ t.pc = 1) ∧
    (∃ t, step (one 0x61) = .next t ∧ t.halted = false ∧ t.pc = 2) ∧
    (∃ t, step (one 0xE1) = .next t ∧ t.halted = false ∧ t.pc = 3) ∧
    ∃ t, step (at' 0 [(0, 0xF0)] (regs 1 9 0 0 0 0 0)) = .next t ∧ t.halted = false ∧ t.pc = 0 := by
  refine ⟨⟨_, rfl, by decide⟩, ⟨_, rfl, by decide⟩, ⟨_, rfl, by decide⟩, ⟨_, rfl, by decide⟩, _, rfl, by decide⟩

theorem witness_OnlyHltHalts : ∃ t, step (one 0xB0) = .next t ∧ t.halted = true := ⟨_, rfl, by decide⟩

theorem witness_OnlyPrlEmitsAndTheLogOnlyGrows :
    (∃ t, step (one 0xF0) = .next t ∧ (one 0xF0).nextOpcode = 0xF#4) ∧
    ∃ t, step (one 0x10) = .next t ∧ (one 0x10).nextOpcode ≠ 0xF#4 := ⟨⟨_, rfl, by decide⟩, _, rfl, by decide⟩

theorem witness_OnlyStoresChangeMemory : -- a load; then a store, and a MOV from M[15] to M[0]
    (∃ t, decode ((one 0x70).bytesAtPc 2) = .ok (.lda 0 0, []) ∧ step (one 0x70) = .next t ∧
      (one 0x70).nextOpcode.toNat ∉ [4, 5, 8, 9]) ∧
    (∃ t, decode ((one 0x82).bytesAtPc 2) = .ok (.st 2 0, []) ∧ step (one 0x82) = .next t) ∧
    ∃ t, decode ((at' 0 [(0, 0x5A), (1, 0xF0)] RegFile.zero).bytesAtPc 2) = .ok (.mov 2 2 15 0, []) ∧
      step (at' 0 [(0, 0x5A), (1, 0xF0)] RegFile.zero) = .next t ∧
      (at' 0 [(0, 0x5A), (1, 0xF0)] RegFile.zero).writtenCells (.mov 2 2 15 0) = [.mem 0, .mem 15] :=
  ⟨⟨_, rfl, rfl, by decide⟩, ⟨_, rfl, rfl⟩, _, rfl, rfl, rfl⟩

theorem witness_RegisterNumbersAliasModSeven : (15 : Nibble).toNat % 7 = (1 : Nibble).toNat % 7 := by decide

theorem witness_CodeIsSeenTwiceByThePc : ∃ t, step (at' 127 [(0, 0x2A), (127, 0x63)] RegFile.zero) = .next t :=
  ⟨_, rfl⟩

theorem witness_StoreIsSeenByTheNextFetch :
    -- the ST of program P7; STA through R2; CPY of a literal; MOV to the next byte; MOV of the next byte, which is zeroed
    (∃ s t : State, step s = .next t ∧ decode (s.bytesAtPc 2) = .ok (.st 3 2, []) ∧
      SameCell (resolve8 2) (.mem t.pc.toNat)) ∧
    (∃ s t : State, step s = .next t ∧ decode (s.bytesAtPc 2) = .ok (.sta 0 3 4, []) ∧
      SameCell (resolve8 (s.readReg (regOf 4))) (.mem t.pc.toNat)) ∧
    (∃ s t : State, step s = .next t ∧ decode (s.bytesAtPc 2) = .ok (.cpy 0 2 15 2, []) ∧
      sourceOperand 0 15 = some (.literal 15) ∧ destOperand 2 2 = some (.mem 2) ∧
      SameCell (.mem 2) (.mem t.pc.toNat)) ∧
    (∃ s t : State, step s = .next t ∧ decode (s.bytesAtPc 2) = .ok (.mov 1 2 3 2, []) ∧
      sourceOperand 1 3 = some (.location (.reg .r1)) ∧ destOperand 2 2 = some (.mem 2) ∧
      SameCell (.mem 2) (.mem t.pc.toNat) ∧ ¬ SameCell (.reg .r1) (.mem t.pc.toNat)) ∧
    (∃ s t : State, step s = .next t ∧ decode (s.bytesAtPc 2) = .ok (.mov 2 1 2 3, []) ∧
      sourceOperand 2 2 = some (.location (.mem 2)) ∧ destOperand 1 3 = some (.reg .r1) ∧
      SameCell (.mem 2) (.mem t.pc.toNat)) ∧
    memIndex 128 = memIndex (one 0).pc.toNat :=
  ⟨⟨at' 0 [(0, 0x83), (1, 2)] (regs 0 0 0 0xB0 0 0 0), _, rfl, rfl, rfl⟩,
   ⟨at' 126 [(126, 0x90), (127, 0x34)] (regs 0 0 0 0xB0 0 0 0), _, rfl, rfl, rfl⟩,
   ⟨at' 0 [(0, 0x42), (1, 0xF2)] RegFile.zero, _, rfl, rfl, rfl, rfl, rfl⟩,
   ⟨at' 0 [(0, 0x56), (1, 0x32)] RegFile.zero, _, rfl, rfl, rfl, rfl, rfl, id⟩,
   ⟨at' 0 [(0, 0x59), (1, 0x23)] RegFile.zero, _, rfl, rfl, rfl, rfl, rfl⟩, rfl⟩

theorem witness_OutputTraceAndErrorAreNeverRead :
    SameInputs (one 0xF0) { one 0xF0 with outLog := [⟨.num, 1⟩], outCount := 1, error := some .cpuHalted } ∧
    ∃ t, step (one 0xF0) = .next t := ⟨⟨rfl, rfl, rfl, rfl⟩, _, rfl⟩

theorem one_prl_inv : (one 0xF0).Inv :=
  ⟨by decide, by decide, rfl, rfl, fun _ h => (nomatch (show none = some _ from h)),
    fun _ h => (nomatch (show _ ∈ [] from h))⟩

theorem witness_StepKeepsInv : (one 0xF0).Inv ∧ ∃ t, step (one 0xF0) = .next t := ⟨one_prl_inv, _, rfl⟩

theorem witness_PowerOnHasInv : Memory.wf [(0, 0x10), (127, 0xFF)] = true := by decide

theorem witness_HostOperationsKeepInv : (one 0xF0).Inv := one_prl_inv

/-- A machine with 64 cells, a 7-bit index, the other polarity of address bit 7 and register numbers above 6 read as
OUT. -/
def small : Config :=
  { hardware with memSize := 64, pcWidth := 7, addrSplit := false, regReduce := fun n => Fin.ofNat 7 (min n 6) }

theorem witness_EveryConfigurationKeepsInv :
    small.Admissible ∧ Memory.wf [(63, 1)] small = true ∧ (State.powerOn [(63, 1)]).halted = false ∧
    (State.powerOn [(63, 1)]).Inv small ∧ ∃ t, stepWith small (State.powerOn [(63, 1)]) = .next t :=
  ⟨⟨by decide, by decide, by decide⟩, by decide, rfl,
    ⟨by decide, by decide, rfl, rfl, fun _ h => (nomatch (show none = some _ from h)),
      fun _ h => (nomatch (show _ ∈ [] from h))⟩, _, rfl⟩

/-- The parameters steer what a step does: from index 127 the index wraps to 0 and the fetch reads `M[63]`. -/
theorem test_small_configuration_wraps :
    (match stepWith small (at' 127 [(63, 0x39)] (regs 0 0 0 0 0 0 41)) with
      | .next t => some (t.pc, t.readReg .out)
      | .fault _ => none
      | .refused _ => none) = some (0, 42) := by decide
theorem test_small_configuration_address_split : resolve8 0x86 small = .mem 6 ∧ resolve8 0x06 small = .reg .out := by
  decide

theorem witness_FaultMarkOutlivesEveryStep : -- a NOP; and a faulting CPY, then a NOP
    (∃ t, step (one 0) = .next t) ∧
    (∃ t, Sys2Proof.core.run 1 (one 0) = .next t ∧ t.faults = (one 0).faults ∧
      1 ≤ 1 ∧ ∃ u, Sys2Proof.core.run 1 (one 0) = .next u) ∧
    ∃ t, Sys2Proof.core.run 2 (one 0x40) = .next t ∧ t.error = none ∧ t.faults = [.invalidAddressingMode 0 0] :=
  ⟨⟨_, rfl⟩, ⟨_, rfl, rfl, le_rfl, _, rfl⟩, _, rfl, rfl, rfl⟩

theorem witness_LoadingFillsMemoryFromZeroAndDropsTheExcess :
    (0 : Nat) < 128 ∧ (127 : Nat) < 128 ∧ (List.replicate 129 (7 : Byte))[127]? = some 7 := by decide

theorem witness_NotificationsReplayTheChange : ∃ t, step (one 0xB0) = .next t := ⟨_, rfl⟩

theorem witness_RunIsTheStepsUpToTheHalt : -- a NOP, then a HLT
    ∃ t, engineRun 2 (at' 0 [(1, 0xB0)] RegFile.zero) = .halted t := ⟨_, rfl⟩

theorem witness_JeqJumpsToItsImmediateTarget :
    (one 0xF0).halted = false ∧ (fun _ : Nibble => Variant.jeq) (one 0xF0).nextOpcode = .jeq := ⟨rfl, rfl⟩

theorem witness_PrtAndPrdEmitOut :
    (one 0xF0).halted = false ∧
    ((fun _ : Nibble => Variant.prt) (one 0xF0).nextOpcode = .prt ∧ OutKind.num = .num) ∧
    (fun _ : Nibble => Variant.prd) (one 0xF0).nextOpcode = .prd ∧ OutKind.dig = .dig := ⟨rfl, ⟨rfl, rfl⟩, rfl, rfl⟩

end Sys2Proof.Tests
end

section
/-! PROOF. The storage primitives on this hardware: what one write makes its own cell read as, and what it leaves
alone (spec/10_state.md R13, R24). -/

namespace Sys2Proof.Machine

/-! ### A register write -/

theorem State.writeReg_readReg_same (s : State) (r : Reg) (v : Int) : (s.writeReg r v).readReg r = truncate v := by
  rw [State.writeReg_readReg, if_pos rfl]

theorem State.writeReg_regsSameBut (s : State) (r : Reg) (v : Int) : RegsSameBut s (s.writeReg r v) r := by
  intro q hq
  rw [State.writeReg_readReg, if_neg hq]

theorem State.writeReg_memSame (s : State) (r : Reg) (v : Int) : MemSame s (s.writeReg r v) :=
  fun a => State.writeReg_readMem s r v a hardware

/-! ### A memory write -/

theorem State.writeMem_readMem_same (s : State) (i : Nat) (v : Int) (c : Config) :
    (s.writeMem i v c).readMem i c = truncate v := by
  rw [State.writeMem_readMem, if_pos rfl]

theorem State.writeMem_memSameBut (s : State) (i : Nat) (v : Int) : MemSameBut s (s.writeMem i v) i := by
  intro a ha
  rw [State.writeMem_readMem, if_neg ha]

theorem State.writeMem_regsSame (s : State) (i : Nat) (v : Int) : RegsSame s (s.writeMem i v) :=
  State.writeMem_readReg s i v hardware

/-! ### The index is reduced before the array is touched (R37) -/

theorem State.readMem_mod (s : State) (i : Nat) : s.readMem (i % 128) = s.readMem i :=
  Memory.read_memIndex s.mem i hardware

theorem State.writeMem_mem_mod (s : State) (i : Nat) (v : Int) : (s.writeMem (i % 128) v).mem = (s.writeMem i v).mem :=
  Memory.write_memIndex s.mem i (truncate v) hardware

end Sys2Proof.Machine

namespace Sys2Proof.Proofs

open Sys2Proof.Machine

/-- Settles O21: each write's reading rule gives the stored value and the frame; the notification carries the byte that
the written cell then reads as. -/
theorem storageTruncatesOnWrite : Obligations.StorageTruncatesOnWrite := by
  intro s r i v
  have hreg := s.writeReg_readReg_same r v
  have hmem := s.writeMem_readMem_same i v hardware
  refine ⟨?regValue, s.writeReg_regsSameBut r v, s.writeReg_memSame r v, ?regEvent,
    ?memValue, s.writeMem_memSameBut i v, s.writeMem_regsSame i v, ?memEvent,
    (s.readMem_mod i).symm, (s.writeMem_mem_mod i v).symm⟩
  case regValue => rw [hreg]; exact truncate_toNat v
  case regEvent => rw [hreg]; exact s.writeReg_events r v
  case memValue => rw [hmem]; exact truncate_toNat v
  case memEvent => rw [hmem]; exact s.writeMem_events i v hardware

end Sys2Proof.Proofs
end

section
/-! PROOF. The unified address map in numbers (spec/20_memory.md R40, R41, R42): the two halves of the address byte's
range, and that a read or write through the map is that of the one cell the address names. -/

namespace Sys2Proof.Machine

/-! ### The address byte: bit 7 and the seven bits below it -/

theorem Byte.bit7_iff (a : Byte) : a.getLsbD 7 = true ↔ 128 ≤ a.toNat := by
  have hmsb : a.getLsbD 7 = a.msb := (BitVec.msb_eq_getLsbD_last a).symm
  rw [hmsb, BitVec.msb_eq_true_iff_two_mul_ge]
  omega

theorem Byte.low7_toNat (a : Byte) : (a.extractLsb' 0 7).toNat = a.toNat % 128 := by
  rw [BitVec.extractLsb'_toNat, Nat.shiftRight_zero]

/-! ### What an address names (R40) -/

theorem resolve8_of_lt {a : Byte} (h : a.toNat < 128) : resolve8 a = .mem a.toNat := by
  obtain ⟨-, hmem⟩ | ⟨hbit, -⟩ := resolve8_cases a
  · rw [hmem, Byte.low7_toNat, Nat.mod_eq_of_lt h]
  · have := (Byte.bit7_iff a).mp hbit
    omega

theorem resolve8_of_ge {a : Byte} (h : 128 ≤ a.toNat) : resolve8 a = .reg (rx (a.toNat - 128)) := by
  obtain ⟨hbit, -⟩ | ⟨-, hreg⟩ := resolve8_cases a
  · exact absurd (hbit.symm.trans ((Byte.bit7_iff a).mpr h)) Bool.false_ne_true
  · have hoff : a.toNat % 128 = a.toNat - 128 := by have := a.isLt; omega
    rw [hreg, Byte.low7_toNat, hoff]

/-! ### Access through the map (R41, R42) -/

theorem State.uread_of_lt (s : State) {a : Byte} (h : a.toNat < 128) : s.uread a = s.readMem a.toNat := by
  rw [State.uread, resolve8_of_lt h, State.readLoc]

theorem State.uread_of_ge (s : State) {a : Byte} (h : 128 ≤ a.toNat) : s.uread a = s.readReg (rx (a.toNat - 128)) := by
  rw [State.uread, resolve8_of_ge h, State.readLoc]

theorem State.uwrite_of_lt (s : State) {a : Byte} (v : Int) (h : a.toNat < 128) :
    s.uwrite a v = s.writeMem a.toNat v := by
  rw [State.uwrite, resolve8_of_lt h, State.writeLoc]

theorem State.uwrite_of_ge (s : State) {a : Byte} (v : Int) (h : 128 ≤ a.toNat) :
    s.uwrite a v = s.writeReg (rx (a.toNat - 128)) v := by
  rw [State.uwrite, resolve8_of_ge h, State.writeLoc]

end Sys2Proof.Machine

namespace Sys2Proof.Proofs

open Sys2Proof.Machine

/-- Settles O20: the address's numeric range decides which array it names, and in the upper half the register is the one
that the offset from 128 names by `rx`. -/
theorem unifiedAddressMap : Obligations.UnifiedAddressMap := by
  intro s a v
  constructor
  case left =>
    intro hlow
    exact ⟨resolve8_of_lt hlow, s.uread_of_lt hlow, s.uwrite_of_lt v hlow⟩
  case right =>
    intro hhigh
    exact ⟨rx (a.toNat - 128), rx_index _, resolve8_of_ge hhigh, s.uread_of_ge hhigh, s.uwrite_of_ge v hhigh⟩

end Sys2Proof.Proofs
end

section
/-! PROOF. The decoder on any bytes (spec/30_encoding.md R60 to R64): the two nibbles in numbers, which variants the map
of R71 reaches, and that the bytes of an instruction, once they are all there, decode whatever their values. -/

namespace Sys2Proof

/-! ### The two nibbles of a byte (R60, R61) -/

theorem highNibble_toNat (b : Byte) : (highNibble b).toNat = b.toNat / 16 := by
  have hb := b.isLt
  rw [highNibble, BitVec.extractLsb'_toNat, Nat.shiftRight_eq_div_pow]
  omega

theorem lowNibble_toNat (b : Byte) : (lowNibble b).toNat = b.toNat % 16 := by
  rw [lowNibble, BitVec.extractLsb'_toNat, Nat.shiftRight_zero]

theorem decodeOpcode_fst (m : OpMap) (b : Byte) : (decodeOpcode m b).1 = m (highNibble b) := rfl

theorem decodeOpcode_snd (m : OpMap) (b : Byte) : (decodeOpcode m b).2 = lowNibble b := rfl

/-! ### The variants of the opcode map (R62, R71) -/

/-- The table has a row for every opcode nibble, so the map never falls back to its default. -/
theorem opMap_mem_opTable (op : Nibble) : opMap op ∈ opTable := by
  rw [opMap, List.getD_eq_getElem opTable .nop op.isLt]
  exact List.getElem_mem _

/-- A variant of the table makes one of the sixteen instructions, of one byte more than its immediates (R64, R73). -/
theorem assemble_of_mem_opTable {v : Variant} (hv : v ∈ opTable) (operand : Nibble) (imms : List Byte) :
    ∃ i, assemble v operand imms = .core i ∧ i.byteLength = v.immCount + 1 := by
  cases v with
  | jeq | prt | prd => exact absurd hv (by decide)
  | _ => exact ⟨_, rfl, rfl⟩

theorem Variant.immCount_le_two (v : Variant) : v.immCount ≤ 2 := by
  cases v <;> decide

/-! ### The decoder (R62, R64) -/

theorem decodeWith_of_immCount_le (m : OpMap) {b : Byte} {rest : List Byte}
    (hlen : (m (highNibble b)).immCount ≤ rest.length) :
    decodeWith m (b :: rest) =
      .ok (assemble (m (highNibble b)) (lowNibble b) (rest.take (m (highNibble b)).immCount),
        rest.drop (m (highNibble b)).immCount) :=
  if_neg (Nat.not_lt.mpr hlen)

theorem decode_of_decodeWith_core {bytes rest : List Byte} {i : Instr}
    (h : decodeWith opMap bytes = .ok (.core i, rest)) : decode bytes = .ok (i, rest) := by
  rw [decode, h]

/-- R62: once the immediates that the opcode nibble asks for are there, the bytes decode, and what is left is what stands
after the instruction. -/
theorem decode_of_immCount_le {b : Byte} {rest : List Byte} (hlen : (opMap (highNibble b)).immCount ≤ rest.length) :
    ∃ i, decode (b :: rest) = .ok (i, rest.drop (opMap (highNibble b)).immCount) ∧
      i.byteLength = (opMap (highNibble b)).immCount + 1 := by
  obtain ⟨i, hcore, hbytes⟩ := assemble_of_mem_opTable (opMap_mem_opTable (highNibble b)) (lowNibble b)
    (rest.take (opMap (highNibble b)).immCount)
  have hdecodeWith := decodeWith_of_immCount_le opMap hlen
  rw [hcore] at hdecodeWith
  exact ⟨i, decode_of_decodeWith_core hdecodeWith, hbytes⟩

end Sys2Proof

namespace Sys2Proof.Proofs

/-- Settles O5: no variant takes more than two immediates, so two bytes after the opcode byte are enough for any of them;
the two parts of a decoded byte are functions of its two nibbles. -/
theorem decodingIsTotalAndSplitsTheByte : Obligations.DecodingIsTotalAndSplitsTheByte := by
  refine ⟨?total, ?variant, ?operand, fun b => ⟨highNibble_toNat b, lowNibble_toNat b⟩⟩
  case total =>
    intro b c d
    obtain ⟨i, hdecode, hbytes⟩ := decode_of_immCount_le (b := b) (rest := [c, d]) (Variant.immCount_le_two _)
    refine ⟨i, _, hdecode, ?_⟩
    rw [List.length_drop, hbytes, List.length_cons, List.length_cons, List.length_nil]
    omega
  case variant =>
    intro b c hhigh
    rw [decodeOpcode_fst, decodeOpcode_fst, hhigh]
  case operand =>
    intro b c hlow
    rw [decodeOpcode_snd, decodeOpcode_snd, hlow]

end Sys2Proof.Proofs
end

section
/-! PROOF. ADD, SUB and INC (spec/41_arithmetic.md R90 to R92): an opcode byte written as a number, and the one register
write that each of the three is. -/

namespace Sys2Proof

/-! ### An opcode byte as a number (R60, R62) -/

theorem highNibble_ofNat (op operand : Nibble) :
    highNibble (BitVec.ofNat 8 (16 * op.toNat + operand.toNat)) = op := by
  apply BitVec.eq_of_toNat_eq
  rw [highNibble_toNat, BitVec.toNat_ofNat]
  omega

theorem lowNibble_ofNat (op operand : Nibble) :
    lowNibble (BitVec.ofNat 8 (16 * op.toNat + operand.toNat)) = operand := by
  apply BitVec.eq_of_toNat_eq
  rw [lowNibble_toNat, BitVec.toNat_ofNat]
  omega

/-- What decodes from an opcode byte given by its two nibbles and followed by its immediates. -/
theorem decode_ofNat_cons {op operand : Nibble} {rest : List Byte} {i : Instr}
    (hlen : (opMap op).immCount ≤ rest.length)
    (hcore : assemble (opMap op) operand (rest.take (opMap op).immCount) = .core i) :
    decode (BitVec.ofNat 8 (16 * op.toNat + operand.toNat) :: rest) = .ok (i, rest.drop (opMap op).immCount) := by
  apply decode_of_decodeWith_core
  rw [decodeWith_of_immCount_le, highNibble_ofNat, lowNibble_ofNat, hcore]
  rwa [highNibble_ofNat]

end Sys2Proof

namespace Sys2Proof.Machine

/-! ### A register write as an instruction's whole effect -/

theorem State.writeReg_byteInt_readReg (s : State) (r : Reg) (v : Int) :
    byteInt ((s.writeReg r v).readReg r) = v % 256 := by
  rw [State.writeReg_readReg_same]
  exact truncate_toNat v

theorem State.writeReg_toNat_readReg (s : State) (r : Reg) (n : Nat) :
    ((s.writeReg r n).readReg r).toNat = n % 256 :=
  Int.ofNat_inj.mp (s.writeReg_byteInt_readReg r n)

/-- A register write changes nothing but its register, and its one notification carries what the register then holds. -/
theorem State.writeReg_frame (s : State) (r : Reg) (v : Int) :
    RegsSameBut s (s.writeReg r v) r ∧ MemSame s (s.writeReg r v) ∧ ControlSame s (s.writeReg r v) ∧
      OutputSame s (s.writeReg r v) ∧
      (s.writeReg r v).events = s.events ++ [.regChanged r ((s.writeReg r v).readReg r)] := by
  refine ⟨s.writeReg_regsSameBut r v, s.writeReg_memSame r v, ⟨rfl, rfl, rfl, rfl⟩, ⟨rfl, rfl⟩, ?event⟩
  case event => rw [State.writeReg_readReg_same, State.writeReg_events]

/-! ### The three instructions -/

theorem exec_add (u : Nibble) (s : State) :
    exec (.add u) s = .next (s.writeReg .res (byteInt (s.readReg .op1) + byteInt (s.readReg .op2))) := rfl

theorem exec_sub (u : Nibble) (s : State) :
    exec (.sub u) s = .next (s.writeReg .res (byteInt (s.readReg .op1) - byteInt (s.readReg .op2))) := rfl

theorem exec_inc (r : Nibble) (s : State) :
    exec (.inc r) s = .next (s.writeReg (regOf r) (byteInt (s.readReg (regOf r)) + 1)) := rfl

end Sys2Proof.Machine

namespace Sys2Proof.Proofs

open Sys2Proof.Machine

/-- Settles O10: ADD is one write of RES, and the exact sum of two bytes is a natural number. -/
theorem addWritesTruncatedSumToRes : Obligations.AddWritesTruncatedSumToRes := by
  intro u s
  have hdecode : decode [BitVec.ofNat 8 (0x10 + u.toNat)] = .ok (.add u, []) :=
    decode_ofNat_cons (op := 1#4) le_rfl rfl
  exact ⟨hdecode, _, exec_add u s, s.writeReg_toNat_readReg .res _, s.writeReg_frame .res _⟩

/-- Settles O11: SUB is one write of RES, and the truncation is taken over the integers, where a difference below zero
has its residue. -/
theorem subWritesTruncatedDifferenceToRes : Obligations.SubWritesTruncatedDifferenceToRes := by
  intro u s
  have hdecode : decode [BitVec.ofNat 8 (0x20 + u.toNat)] = .ok (.sub u, []) :=
    decode_ofNat_cons (op := 2#4) le_rfl rfl
  exact ⟨hdecode, _, exec_sub u s, s.writeReg_byteInt_readReg .res _, s.writeReg_frame .res _⟩

/-- Settles O12: INC is one write of the register that its operand nibble names by `rx`. -/
theorem incAddsOneToTheNamedRegister : Obligations.IncAddsOneToTheNamedRegister := by
  intro r s
  have hdecode : decode [BitVec.ofNat 8 (0x30 + r.toNat)] = .ok (.inc r, []) :=
    decode_ofNat_cons (op := 3#4) le_rfl rfl
  exact ⟨hdecode, rx_index r.toNat, _, exec_inc r s, s.writeReg_toNat_readReg (regOf r) _,
    s.writeReg_frame (regOf r) _⟩

end Sys2Proof.Proofs
end

section
/-! PROOF. LD, LDA, ST and STA (spec/43_load_store.md R100 to R103): the two loads are one register write of a byte, the
two stores one write of the cell that a unified address names. -/

namespace Sys2Proof.Machine

/-! ### A write of a byte as an instruction's whole effect -/

/-- A byte is stored whole: no truncation (R6). -/
theorem State.writeReg_byte_readReg (s : State) (r : Reg) (b : Byte) :
    (s.writeReg r (byteInt b)).readReg r = b := by
  rw [State.writeReg_readReg_same, truncate_byteInt]

/-- Storing a byte through the unified map changes the cell that the address names, with its one notification, and
nothing else (R42). -/
theorem State.uwrite_byte_spec (s : State) (a b : Byte) :
    (s.uwrite a (byteInt b)).readLoc (resolve8 a) = b ∧ CellsSameBut s (s.uwrite a (byteInt b)) [resolve8 a] ∧
      ControlSame s (s.uwrite a (byteInt b)) ∧ OutputSame s (s.uwrite a (byteInt b)) ∧
      (s.uwrite a (byteInt b)).events = s.events ++ [writeEvent (resolve8 a) b] := by
  obtain ⟨hpc, hhalted, herror, hfaults, hlog, hcount, hevents⟩ :=
    s.writeLoc_rest (resolve8 a) (byteInt b) hardware
  rw [truncate_byteInt] at hevents
  refine ⟨?stored, s.writeLoc_cells (resolve8 a) (byteInt b), ⟨hpc, hhalted, herror, hfaults⟩, ⟨hlog, hcount⟩, hevents⟩
  case stored => rw [State.uwrite, State.writeLoc_readLoc, truncate_byteInt]

/-! ### A read through the unified map (R41) -/

theorem State.uread_eq_ite (s : State) (a : Byte) :
    s.uread a = if a.toNat < 128 then s.readMem a.toNat else s.readReg (rx (a.toNat - 128)) := by
  split
  next hlow => exact s.uread_of_lt hlow
  next hhigh => exact s.uread_of_ge (Nat.not_lt.mp hhigh)

/-! ### The four instructions -/

theorem exec_ld (r : Nibble) (imm : Byte) (s : State) :
    exec (.ld r imm) s = .next (s.writeReg (regOf r) (byteInt imm)) := rfl

theorem exec_lda (r : Nibble) (addr : Byte) (s : State) :
    exec (.lda r addr) s = .next (s.writeReg (regOf r) (byteInt (s.uread addr))) := rfl

theorem exec_st (r : Nibble) (addr : Byte) (s : State) :
    exec (.st r addr) s = .next (s.uwrite addr (byteInt (s.readReg (regOf r)))) := rfl

theorem exec_sta (u src ptr : Nibble) (s : State) :
    exec (.sta u src ptr) s =
      .next (s.uwrite (s.readReg (regOf ptr)) (byteInt (s.readReg (regOf src)))) := rfl

end Sys2Proof.Machine

namespace Sys2Proof.Proofs

open Sys2Proof.Machine

/-- Settles O16: LD is one write of the named register, and a literal byte is stored whole. -/
theorem ldLoadsTheLiteral : Obligations.LdLoadsTheLiteral := by
  intro r imm s
  have hdecode : decode [BitVec.ofNat 8 (0x60 + r.toNat), imm] = .ok (.ld r imm, []) :=
    decode_ofNat_cons (op := 6#4) le_rfl rfl
  have hloaded := s.writeReg_byte_readReg (regOf r) imm
  have hframe := s.writeReg_frame (regOf r) (byteInt imm)
  rw [hloaded] at hframe
  exact ⟨hdecode, rx_index r.toNat, _, exec_ld r imm s, hloaded, hframe⟩

/-- Settles O17: LDA is one write of the named register, whose byte is a read through the unified map, by the half of the
address range. -/
theorem ldaLoadsFromTheUnifiedAddress : Obligations.LdaLoadsFromTheUnifiedAddress := by
  intro r addr s
  have hdecode : decode [BitVec.ofNat 8 (0x70 + r.toNat), addr] = .ok (.lda r addr, []) :=
    decode_ofNat_cons (op := 7#4) le_rfl rfl
  have hloaded := (s.writeReg_byte_readReg (regOf r) (s.uread addr)).trans (s.uread_eq_ite addr)
  exact ⟨hdecode, rx_index r.toNat, _, exec_lda r addr s, hloaded, s.writeReg_frame (regOf r) _⟩

/-- Settles O18: ST is one write, through the unified map, of the named register's byte. -/
theorem stStoresAtTheUnifiedAddress : Obligations.StStoresAtTheUnifiedAddress := by
  intro r addr s
  have hdecode : decode [BitVec.ofNat 8 (0x80 + r.toNat), addr] = .ok (.st r addr, []) :=
    decode_ofNat_cons (op := 8#4) le_rfl rfl
  exact ⟨hdecode, rx_index r.toNat, _, exec_st r addr s, s.uwrite_byte_spec addr (s.readReg (regOf r))⟩

/-- Settles O19: STA is one write through the unified map at the pointer register's byte; address and value are both read
from the state before it, so the pointer may name its own register. The immediate's two nibbles are split as those of an
opcode byte are. -/
theorem staStoresThroughThePointer : Obligations.StaStoresThroughThePointer := by
  intro u src ptr s
  have hassemble : assemble .sta u [BitVec.ofNat 8 (16 * src.toNat + ptr.toNat)] = .core (.sta u src ptr) := by
    simp only [assemble, List.getD_cons_zero, highNibble_ofNat, lowNibble_ofNat]
  have hdecode : decode [BitVec.ofNat 8 (0x90 + u.toNat), BitVec.ofNat 8 (16 * src.toNat + ptr.toNat)] =
      .ok (.sta u src ptr, []) :=
    decode_ofNat_cons (op := 9#4) le_rfl hassemble
  exact ⟨hdecode, rx_index src.toNat, rx_index ptr.toNat, _, exec_sta u src ptr s,
    s.uwrite_byte_spec (s.readReg (regOf ptr)) (s.readReg (regOf src))⟩

end Sys2Proof.Proofs
end

section
/-! PROOF. JMP, JE, JNE and CJP (spec/44_jumps.md R105 to R109): each is at most one jump, to a register's byte, and what
tells the four apart is the condition it is made under. -/

namespace Sys2Proof.Machine

/-! ### A jump made under a condition, as an instruction's whole effect -/

/-- A jump to `target` where the condition holds, and no effect where it does not: what JE, JNE and CJP come to (`exec_je`,
`exec_jne`, `exec_cjp`). -/
def State.jumpWhen (s : State) (taken : Prop) [Decidable taken] (target : Byte) : State :=
  if taken then s.jumpTo target else s

theorem State.jumpWhen_of_pos (s : State) {taken : Prop} [Decidable taken] (target : Byte) (h : taken) :
    s.jumpWhen taken target = s.jumpTo target := if_pos h

theorem State.jumpWhen_of_neg (s : State) {taken : Prop} [Decidable taken] (target : Byte) (h : ¬ taken) :
    s.jumpWhen taken target = s := if_neg h

/-- A jump puts the whole target byte in `pc`, with its one notification, and changes nothing else (R20, R45). -/
theorem State.jumpTo_spec (s : State) (target : Byte) :
    (s.jumpTo target).pc = target ∧ RegsSame s (s.jumpTo target) ∧ MemSame s (s.jumpTo target) ∧
      OutputSame s (s.jumpTo target) ∧ (s.jumpTo target).halted = s.halted ∧ NothingRaised s (s.jumpTo target) ∧
      (s.jumpTo target).events = s.events ++ [.pcChanged (byteInt s.pc) (byteInt target)] := by
  refine ⟨?pc, fun _ => rfl, fun _ => rfl, ⟨rfl, rfl⟩, rfl, ⟨rfl, rfl⟩, ?event⟩
  case pc => rw [State.jumpTo_pc, wrapPc_hardware]
  case event => rw [State.jumpTo_events, wrapPc_hardware]

/-- Jump or no jump, only `pc` and the trace can change; the condition alone decides whether they do. -/
theorem State.jumpWhen_spec (s : State) (taken : Prop) [Decidable taken] (target : Byte) :
    RegsSame s (s.jumpWhen taken target) ∧ MemSame s (s.jumpWhen taken target) ∧
      OutputSame s (s.jumpWhen taken target) ∧ (s.jumpWhen taken target).halted = s.halted ∧
      NothingRaised s (s.jumpWhen taken target) ∧
      (if taken then (s.jumpWhen taken target).pc = target ∧
          (s.jumpWhen taken target).events = s.events ++ [.pcChanged (byteInt s.pc) (byteInt target)]
       else (s.jumpWhen taken target).pc = s.pc ∧ (s.jumpWhen taken target).events = s.events) := by
  by_cases h : taken
  case pos =>
    obtain ⟨hpc, hregs, hmem, hout, hhalted, hraised, hevents⟩ := s.jumpTo_spec target
    rw [s.jumpWhen_of_pos target h, if_pos h]
    exact ⟨hregs, hmem, hout, hhalted, hraised, hpc, hevents⟩
  case neg =>
    rw [s.jumpWhen_of_neg target h, if_neg h]
    exact ⟨fun _ => rfl, fun _ => rfl, ⟨rfl, rfl⟩, rfl, ⟨rfl, rfl⟩, rfl, rfl⟩

/-- A jump is always notified, even one to the index `pc` already has; so the trace tells whether one was made. -/
theorem State.jumpWhen_events_eq_iff (s : State) (taken : Prop) [Decidable taken] (target : Byte) :
    (s.jumpWhen taken target).events = s.events ↔ ¬ taken := by
  by_cases h : taken
  case pos =>
    rw [s.jumpWhen_of_pos target h, State.jumpTo_events]
    simp [h]
  case neg =>
    rw [s.jumpWhen_of_neg target h]
    exact iff_of_true rfl h

/-! ### The comparison of CJP (R108, R109) -/

/-- The six assigned codes and what each compares; under any other code the condition fails. -/
theorem condition_iff (code : Nibble) (va vb : Byte) :
    condition code va vb = true ↔
      (code = 1#4 ∧ va.toNat = vb.toNat) ∨ (code = 2#4 ∧ va.toNat ≠ vb.toNat) ∨
      (code = 3#4 ∧ va.toNat < vb.toNat) ∨ (code = 4#4 ∧ va.toNat > vb.toNat) ∨
      (code = 5#4 ∧ va.toNat ≤ vb.toNat) ∨ (code = 6#4 ∧ va.toNat ≥ vb.toNat) := by
  have hcode (k : Nat) (hk : k < 16) : code = BitVec.ofNat 4 k ↔ code.toNat = k := by
    rw [← BitVec.toNat_inj, BitVec.toNat_ofNat, Nat.mod_eq_of_lt hk]
  rw [hcode 1 (by decide), hcode 2 (by decide), hcode 3 (by decide), hcode 4 (by decide), hcode 5 (by decide),
    hcode 6 (by decide), condition]
  split
  case h_1 h | h_2 h | h_3 h | h_4 h | h_5 h | h_6 h => simp [h]
  case h_7 =>
    refine iff_of_false Bool.false_ne_true ?_
    rintro (⟨h, -⟩ | ⟨h, -⟩ | ⟨h, -⟩ | ⟨h, -⟩ | ⟨h, -⟩ | ⟨h, -⟩) <;> contradiction

/-! ### The four instructions -/

theorem exec_jmp (r : Nibble) (s : State) : exec (.jmp r) s = .next (s.jumpTo (s.readReg (regOf r))) := rfl

theorem exec_je (r : Nibble) (s : State) :
    exec (.je r) s = .next (s.jumpWhen (s.readReg .op1 = s.readReg .op2) (s.readReg (regOf r))) :=
  congrArg Host.Outcome.next (if_congr beq_iff_eq rfl rfl)

theorem exec_jne (r : Nibble) (s : State) :
    exec (.jne r) s = .next (s.jumpWhen (¬ s.readReg .op1 = s.readReg .op2) (s.readReg (regOf r))) :=
  congrArg Host.Outcome.next ((if_congr beq_iff_eq rfl rfl).trans (ite_not ..).symm)

theorem exec_cjp (code a b : Nibble) (s : State) :
    exec (.cjp code a b) s =
      .next (s.jumpWhen (condition code (s.readReg (regOf a)) (s.readReg (regOf b)) = true) (s.readReg .res)) := rfl

end Sys2Proof.Machine

namespace Sys2Proof.Proofs

open Sys2Proof.Machine

/-- Settles O25: JNE is the jump under the negation of JE's condition; a jump is always notified, so of the two traces
exactly one stays as it was. -/
theorem jneJumpsIffOperandsDiffer : Obligations.JneJumpsIffOperandsDiffer := by
  intro r s
  have hdecode : decode [BitVec.ofNat 8 (0xD0 + r.toNat)] = .ok (.jne r, []) :=
    decode_ofNat_cons (op := 0xD#4) le_rfl rfl
  refine ⟨hdecode, rx_index r.toNat, ⟨_, exec_jne r s, ?effect⟩, ?exclusive⟩
  case effect =>
    have hspec := s.jumpWhen_spec (¬ s.readReg .op1 = s.readReg .op2) (s.readReg (regOf r))
    rwa [ite_not] at hspec
  case exclusive =>
    intro t t' hje hjne
    obtain rfl := Host.Outcome.next.inj ((exec_je r s).symm.trans hje)
    obtain rfl := Host.Outcome.next.inj ((exec_jne r s).symm.trans hjne)
    rw [Ne, Ne, State.jumpWhen_events_eq_iff, State.jumpWhen_events_eq_iff, not_not]
    tauto

/-- Settles O26: CJP is the jump to RES under the comparison that its code names. The immediate's two nibbles are split as
those of an opcode byte are. -/
theorem cjpJumpsWhenTheComparisonHolds : Obligations.CjpJumpsWhenTheComparisonHolds := by
  intro code a b s
  have hassemble : assemble .cjp code [BitVec.ofNat 8 (16 * a.toNat + b.toNat)] = .core (.cjp code a b) := by
    simp only [assemble, List.getD_cons_zero, highNibble_ofNat, lowNibble_ofNat]
  have hdecode : decode [BitVec.ofNat 8 (0xE0 + code.toNat), BitVec.ofNat 8 (16 * a.toNat + b.toNat)] =
      .ok (.cjp code a b, []) :=
    decode_ofNat_cons (op := 0xE#4) le_rfl hassemble
  refine ⟨hdecode, rx_index a.toNat, rx_index b.toNat, _, exec_cjp code a b s, ?effect⟩
  case effect =>
    simp only [← condition_iff]
    exact s.jumpWhen_spec _ (s.readReg .res)

/-- Settles O23: JMP is the jump itself, under no condition. -/
theorem jmpSetsPcToTheRegister : Obligations.JmpSetsPcToTheRegister := by
  intro r s
  have hdecode : decode [BitVec.ofNat 8 (0xA0 + r.toNat)] = .ok (.jmp r, []) :=
    decode_ofNat_cons (op := 0xA#4) le_rfl rfl
  exact ⟨hdecode, rx_index r.toNat, _, exec_jmp r s, s.jumpTo_spec (s.readReg (regOf r))⟩

/-- Settles O24: JE is the jump under the equality of the two operand registers. -/
theorem jeJumpsIffOperandsEqual : Obligations.JeJumpsIffOperandsEqual := by
  intro r s
  have hdecode : decode [BitVec.ofNat 8 (0xC0 + r.toNat)] = .ok (.je r, []) :=
    decode_ofNat_cons (op := 0xC#4) le_rfl rfl
  exact ⟨hdecode, rx_index r.toNat, _, exec_je r s, s.jumpWhen_spec _ (s.readReg (regOf r))⟩

end Sys2Proof.Proofs
end

section
/-! PROOF. One iteration of PRL (spec/45_print_loop.md R110): an emission, a write of OP1, and then the jump back that a
difference of the new OP1 from OP2 makes. -/

namespace Sys2Proof.Machine

/-! ### The emission and the increment -/

/-- An iteration before its end test is the increment of OP1 in the state after the emission; an emission writes no
register, so the byte incremented is the address that was emitted from. -/
theorem State.printOne_eq (s : State) :
    s.printOne = (s.emit .chr (s.uread (s.readReg .op1))).writeReg .op1 (byteInt (s.readReg .op1) + 1) := rfl

/-- The emission and the increment change the output channel, OP1 and the trace, and nothing else. -/
theorem State.printOne_spec (s : State) :
    s.printOne.outLog = s.outLog ++ [⟨.chr, s.uread (s.readReg .op1)⟩] ∧ s.printOne.outCount = s.outCount + 1 ∧
      (s.printOne.readReg .op1).toNat = ((s.readReg .op1).toNat + 1) % 256 ∧ RegsSameBut s s.printOne .op1 ∧
      MemSame s s.printOne ∧ s.printOne.pc = s.pc ∧ s.printOne.halted = s.halted ∧ NothingRaised s s.printOne ∧
      s.printOne.events = s.events ++
        [.output .chr (s.uread (s.readReg .op1)), .regChanged .op1 (s.printOne.readReg .op1)] := by
  obtain ⟨hregs, hmem, ⟨hpc, hhalted, hraised⟩, ⟨hlog, hcount⟩, hevents⟩ :=
    (s.emit .chr (s.uread (s.readReg .op1))).writeReg_frame .op1 (byteInt (s.readReg .op1) + 1)
  rw [← s.printOne_eq] at hregs hmem hpc hhalted hraised hlog hcount hevents
  refine ⟨hlog, hcount, ?stepped, hregs, hmem, hpc, hhalted, hraised, ?events⟩
  case stepped => exact State.writeReg_toNat_readReg _ .op1 _
  case events => rw [hevents, State.emit_events, List.append_assoc, List.singleton_append]

/-! ### The end test -/

/-- PRL is the emission and the increment, and then the jump back onto itself unless the new OP1 is OP2, which no part of
the iteration writes. -/
theorem exec_prl (u : Nibble) (s : State) :
    exec (.prl u) s =
      .next (s.printOne.jumpWhen (¬ s.printOne.readReg .op1 = s.readReg .op2) (s.pc - 1)) :=
  congrArg Host.Outcome.next ((if_congr beq_iff_eq rfl rfl).trans (ite_not ..).symm)

/-- One index back is 255 on, modulo 256 (R19). -/
theorem pc_sub_one_toNat (a : Byte) : (a - 1).toNat = (a.toNat + 255) % 256 := by
  bv_omega

end Sys2Proof.Machine

namespace Sys2Proof.Proofs

open Sys2Proof.Machine

/-- Settles O27: what the emission and the increment did stands, jump or no jump; the jump back adds its `pc` and its
notification. -/
theorem prlEmitsAndStepsThePointer : Obligations.PrlEmitsAndStepsThePointer := by
  intro u s
  have hdecode : decode [BitVec.ofNat 8 (0xF0 + u.toNat)] = .ok (.prl u, []) :=
    decode_ofNat_cons (op := 0xF#4) le_rfl rfl
  obtain ⟨hlog, hcount, hstepped, hregs, hmem, hpc, hhalted, ⟨herror, hfaults⟩, hevents⟩ := s.printOne_spec
  obtain ⟨jregs, jmem, ⟨jlog, jcount⟩, jhalted, ⟨jerror, jfaults⟩, jump⟩ :=
    s.printOne.jumpWhen_spec (¬ s.printOne.readReg .op1 = s.readReg .op2) (s.pc - 1)
  refine ⟨hdecode, _, exec_prl u s, jlog.trans hlog, jcount.trans hcount, ?stepped,
    fun r hr => (jregs r).trans (hregs r hr), fun a => (jmem a).trans (hmem a), jhalted.trans hhalted,
    ⟨jerror.trans herror, jfaults.trans hfaults⟩, ?endTest⟩
  case stepped => rw [jregs .op1, hstepped]
  case endTest =>
    rw [jregs .op1]
    rw [ite_not] at jump
    split at jump
    next hlast =>
      obtain ⟨jpc, jevents⟩ := jump
      rw [if_pos hlast]
      exact ⟨jpc.trans hpc, jevents.trans hevents⟩
    next hmore =>
      obtain ⟨jpc, jevents⟩ := jump
      rw [if_neg hmore, jpc]
      refine ⟨pc_sub_one_toNat s.pc, ?_⟩
      rw [jevents, hevents, hpc, List.append_assoc]
      rfl

end Sys2Proof.Proofs
end

section
/-! PROOF. NOP (spec/46_nop_hlt.md R113): what a step runs when its bytes assemble to one of the sixteen instructions, what
the fetch of a one-byte instruction does to the state, and that NOP adds nothing to it. -/

namespace Sys2Proof.Machine

/-! ### A step whose bytes are an instruction's -/

/-- A step of a running machine is the meaning of the instruction that its bytes assemble to, in the state after their
fetch (R80). -/
theorem step_of_assemble_core {s : State} {i : Instr} (hrun : s.halted = false)
    (hcore : assemble (opMap s.nextOpcode) (lowNibble (s.readMem s.pc.toNat))
      (s.bytesFrom (opMap s.nextOpcode).immCount (s.pc + 1)) = .core i) :
    step s = exec i (s.afterFetch ((opMap s.nextOpcode).immCount + 1)) := by
  have hstep := stepWith_of_running opMap hrun
  rw [hcore] at hstep
  exact hstep.trans (exec_eq_execWith i _).symm

theorem State.nextOpcode_of_readMem {s : State} {op operand : Nibble}
    (hbyte : s.readMem s.pc.toNat = BitVec.ofNat 8 (16 * op.toNat + operand.toNat)) : s.nextOpcode = op := by
  rw [State.nextOpcode, hbyte, highNibble_ofNat]

/-- A running machine whose next byte is that of an instruction without immediates runs it after a fetch of that byte. -/
theorem step_of_readMem {s : State} {op operand : Nibble} {i : Instr} (hrun : s.halted = false)
    (hbyte : s.readMem s.pc.toNat = BitVec.ofNat 8 (16 * op.toNat + operand.toNat))
    (himm : (opMap op).immCount = 0) (hcore : assemble (opMap op) operand [] = .core i) :
    step s = exec i (s.afterFetch 1) := by
  have hop := State.nextOpcode_of_readMem hbyte
  have hstep := step_of_assemble_core (s := s) (i := i) hrun
  rw [hop, hbyte, lowNibble_ofNat, himm] at hstep
  exact hstep hcore

/-! ### The fetch of one byte (R18, R19) -/

/-- The fetch of one byte advances `pc` by one modulo 256, with the one notification of that, and empties the error port;
nothing else changes. -/
theorem State.afterFetch_one_spec (s : State) :
    (s.afterFetch 1).pc.toNat = (s.pc.toNat + 1) % 256 ∧ RegsSame s (s.afterFetch 1) ∧ MemSame s (s.afterFetch 1) ∧
      OutputSame s (s.afterFetch 1) ∧ (s.afterFetch 1).halted = s.halted ∧ (s.afterFetch 1).error = none ∧
      (s.afterFetch 1).faults = s.faults ∧
      (s.afterFetch 1).events = s.events ++ [.pcChanged (byteInt s.pc) (byteInt (s.afterFetch 1).pc)] := by
  refine ⟨?pc, s.afterFetch_readReg 1, s.afterFetch_readMem 1, ⟨s.afterFetch_outLog 1, s.afterFetch_outCount 1⟩,
    s.afterFetch_halted 1, s.afterFetch_error 1, s.afterFetch_faults 1, ?events⟩
  case pc =>
    rw [State.afterFetch_pc, BitVec.toNat_add]
    rfl
  case events =>
    rw [State.afterFetch_events, State.afterFetch_pc]
    rfl

/-! ### The instruction -/

theorem exec_nop (u : Nibble) (s : State) : exec (.nop u) s = .next s := rfl

end Sys2Proof.Machine

namespace Sys2Proof.Proofs

open Sys2Proof.Machine

/-- Settles O30: NOP answers the state it acts on, so a step of it answers the state after the fetch of its one byte. The
opcode nibble is 0, so the byte is its operand's number. -/
theorem nopChangesNothingButTheFetch : Obligations.NopChangesNothingButTheFetch := by
  intro u s
  have hnibbles : u.toNat = 16 * (0#4).toNat + u.toNat := (Nat.zero_add u.toNat).symm
  rw [hnibbles]
  refine ⟨decode_ofNat_cons (op := 0#4) le_rfl rfl, exec_nop u s, ?step⟩
  case step =>
    intro hrun hbyte
    have hstep : step s = .next (s.afterFetch 1) :=
      (step_of_readMem (i := .nop u) hrun hbyte rfl rfl).trans (exec_nop u _)
    obtain ⟨hpc, hregs, hmem, hout, hhalted, herror, hfaults, hevents⟩ := s.afterFetch_one_spec
    exact ⟨_, hstep, hpc, hregs, hmem, hout, hhalted.trans hrun, herror, hfaults, hevents⟩

end Sys2Proof.Proofs
end

section
/-! PROOF. The surplus variants JEQ, PRT and PRD (spec/47_surplus_variants.md R116 to R118): a step of a machine whose
opcode map reaches one is its fetch and then one conditional jump, or one emission. -/

namespace Sys2Proof.Machine

/-! ### A step of a known variant -/

/-- A step of a running machine, by the variant that its opcode map gives the next byte (R72, R82). -/
theorem stepWith_of_variant {m : OpMap} {s : State} {v : Variant} (hrun : s.halted = false)
    (hop : m s.nextOpcode = v) :
    stepWith (hardware.withMap m) s =
      execDecoded (assemble v (lowNibble (s.readMem s.pc.toNat)) (s.bytesFrom v.immCount (s.pc + 1)))
        (s.afterFetch (v.immCount + 1)) (hardware.withMap m) := by
  rw [stepWith_of_running m hrun, hop]

/-- The two bytes after the opcode byte (R46). -/
theorem State.bytesFrom_two (s : State) :
    s.bytesFrom 2 (s.pc + 1) = [s.readMem (s.pc + 1).toNat, s.readMem (s.pc + 2).toNat] := by
  have hnext : s.pc + 1 + 1 = s.pc + 2 := pc_add_succ s.pc 1
  rw [State.bytesFrom, State.bytesFrom, State.bytesFrom, hnext]

/-! ### JEQ (R116) -/

/-- The opcode map plays no part in a jump or in which registers are compared. -/
theorem execJeq_withMap (u a b : Nibble) (target : Byte) (s : State) (m : OpMap) :
    execJeq u a b target s (hardware.withMap m) =
      .next (s.jumpWhen (s.readReg (regOf a) = s.readReg (regOf b)) target) :=
  congrArg Host.Outcome.next (if_congr beq_iff_eq rfl rfl)

/-- A step of JEQ is the fetch of three bytes and then the jump to the third, made if the registers that the second names
are equal; the fetch writes no register. -/
theorem stepWith_jeq {m : OpMap} {s : State} (hrun : s.halted = false) (hop : m s.nextOpcode = .jeq) :
    stepWith (hardware.withMap m) s =
      .next ((s.afterFetch 3).jumpWhen
        (s.readReg (regOf (highNibble (s.readMem (s.pc + 1).toNat))) =
          s.readReg (regOf (lowNibble (s.readMem (s.pc + 1).toNat))))
        (s.readMem (s.pc + 2).toNat)) := by
  rw [stepWith_of_variant hrun hop, Variant.immCount, State.bytesFrom_two]
  simp only [← s.afterFetch_readReg 3]
  exact execJeq_withMap (lowNibble (s.readMem s.pc.toNat)) _ _ _ _ m

/-! ### PRT and PRD (R117, R118) -/

theorem execPrt_eq_emit (u : Nibble) (s : State) : execPrt u s = .next (s.emit .num (s.readReg .out)) := rfl

theorem execPrd_eq_emit (u : Nibble) (s : State) : execPrd u s = .next (s.emit .dig (s.readReg .out)) := rfl

/-- A step of PRT or PRD is the fetch of its one byte and then the emission of OUT; only the tag tells the two apart. -/
theorem stepWith_emitOut {m : OpMap} {s : State} {k : OutKind} (hrun : s.halted = false)
    (hop : (m s.nextOpcode = .prt ∧ k = .num) ∨ (m s.nextOpcode = .prd ∧ k = .dig)) :
    stepWith (hardware.withMap m) s = .next ((s.afterFetch 1).emit k (s.readReg .out)) := by
  rw [← s.afterFetch_readReg 1 .out]
  obtain ⟨hprt, rfl⟩ | ⟨hprd, rfl⟩ := hop
  · exact (stepWith_of_variant hrun hprt).trans (execPrt_eq_emit (lowNibble (s.readMem s.pc.toNat)) _)
  · exact (stepWith_of_variant hrun hprd).trans (execPrd_eq_emit (lowNibble (s.readMem s.pc.toNat)) _)

end Sys2Proof.Machine

namespace Sys2Proof.Proofs

open Sys2Proof.Machine

/-- Settles O47: JEQ is the conditional jump made in the state after the fetch of its three bytes, so `pc` and the trace
start there; registers, memory and output are still those before the fetch. -/
theorem jeqJumpsToItsImmediateTarget : Obligations.JeqJumpsToItsImmediateTarget := by
  intro m s hrun hop
  obtain ⟨jregs, jmem, ⟨jlog, jcount⟩, jhalted, ⟨jerror, jfaults⟩, jump⟩ := (s.afterFetch 3).jumpWhen_spec
    (s.readReg (regOf (highNibble (s.readMem (s.pc + 1).toNat))) =
      s.readReg (regOf (lowNibble (s.readMem (s.pc + 1).toNat))))
    (s.readMem (s.pc + 2).toNat)
  rw [State.afterFetch_events, State.afterFetch_pc] at jump
  exact ⟨_, stepWith_jeq hrun hop,
    fun r => (jregs r).trans (s.afterFetch_readReg 3 r), fun a => (jmem a).trans (s.afterFetch_readMem 3 a),
    ⟨jlog.trans (s.afterFetch_outLog 3), jcount.trans (s.afterFetch_outCount 3)⟩,
    jhalted.trans ((s.afterFetch_halted 3).trans hrun), jerror.trans (s.afterFetch_error 3),
    jfaults.trans (s.afterFetch_faults 3), jump⟩

/-- Settles O48: PRT and PRD are one emission in the state after the fetch of their one byte, whose own fields are those
before the fetch but for `pc`, the error port and the trace. -/
theorem prtAndPrdEmitOut : Obligations.PrtAndPrdEmitOut := by
  intro m s k hrun hop
  refine ⟨_, stepWith_emitOut hrun hop, ?log, ?count, s.afterFetch_readReg 1, s.afterFetch_readMem 1,
    s.afterFetch_pc 1, (s.afterFetch_halted 1).trans hrun, s.afterFetch_error 1, s.afterFetch_faults 1, ?events⟩
  case log => rw [State.emit_outLog, State.afterFetch_outLog]
  case count => rw [State.emit_outCount, State.afterFetch_outCount]
  case events => rw [State.emit_events, State.afterFetch_events]

end Sys2Proof.Proofs
end

section
/-! PROOF. The encoder and the decoder as inverses of each other (spec/30_encoding.md sections 1 to 5): the nibbles
and tags that make up a byte, the decoder run on an instruction's bytes, and the encoder run on what was decoded. -/

namespace Sys2Proof

/-! ### A byte of two nibbles, a nibble of two tags (R60, R66) -/

theorem opcodeByte_eq_ofNat (op operand : Nibble) :
    opcodeByte op operand = BitVec.ofNat 8 (16 * op.toNat + operand.toNat) := by
  revert op operand; decide

theorem highNibble_append (a b : Nibble) : highNibble (a ++ b) = a := Laws.EncodeShape.highNibble_opcodeByte a b

theorem lowNibble_append (a b : Nibble) : lowNibble (a ++ b) = b := by
  rw [← opcodeByte, opcodeByte_eq_ofNat, lowNibble_ofNat]

theorem highNibble_append_lowNibble (b : Byte) : highNibble b ++ lowNibble b = b := by
  rw [← opcodeByte, opcodeByte_eq_ofNat, highNibble_toNat, lowNibble_toNat, Nat.div_add_mod, BitVec.ofNat_toNat,
    BitVec.setWidth_eq]

theorem highTag_modeNibble (sm dm : Tag) : highTag (modeNibble sm dm) = sm := by revert sm dm; decide

theorem lowTag_modeNibble (sm dm : Tag) : lowTag (modeNibble sm dm) = dm := by revert sm dm; decide

theorem modeNibble_highTag_lowTag (n : Nibble) : modeNibble (highTag n) (lowTag n) = n := by revert n; decide

theorem modeNibble_toNat (sm dm : Tag) : (modeNibble sm dm).toNat = 4 * sm.toNat + dm.toNat := by
  revert sm dm; decide

/-! ### The instruction of given operands (R65, R66) -/

theorem assemble_cpy (sm dm : Tag) (src dst : Nibble) :
    assemble .cpy (modeNibble sm dm) [src ++ dst] = .core (.cpy sm dm src dst) := by
  simp only [assemble, List.getD_cons_zero, highTag_modeNibble, lowTag_modeNibble, highNibble_append, lowNibble_append]

theorem assemble_mov (sm dm : Tag) (src dst : Nibble) :
    assemble .mov (modeNibble sm dm) [src ++ dst] = .core (.mov sm dm src dst) := by
  simp only [assemble, List.getD_cons_zero, highTag_modeNibble, lowTag_modeNibble, highNibble_append, lowNibble_append]

theorem assemble_sta (u src ptr : Nibble) : assemble .sta u [src ++ ptr] = .core (.sta u src ptr) := by
  simp only [assemble, List.getD_cons_zero, highNibble_append, lowNibble_append]

theorem assemble_cjp (code a b : Nibble) : assemble .cjp code [a ++ b] = .core (.cjp code a b) := by
  simp only [assemble, List.getD_cons_zero, highNibble_append, lowNibble_append]

/-! ### Decoding what was encoded -/

/-- What decodes from an opcode byte given as its two nibbles and followed by exactly its immediates, then any
bytes. -/
theorem decode_opcodeByte {op operand : Nibble} {i : Instr} (imms rest : List Byte)
    (hlen : imms.length = (opMap op).immCount) (hcore : assemble (opMap op) operand imms = .core i) :
    decode (opcodeByte op operand :: (imms ++ rest)) = .ok (i, rest) := by
  have hle : (opMap op).immCount ≤ (imms ++ rest).length := by
    rw [List.length_append, hlen]
    exact Nat.le_add_right _ _
  have hcore' : assemble (opMap op) operand ((imms ++ rest).take (opMap op).immCount) = .core i := by
    rwa [← hlen, List.take_left]
  rw [opcodeByte_eq_ofNat, decode_ofNat_cons hle hcore', ← hlen, List.drop_left]

/-- Each instruction's bytes are the pattern of its row, which gives its operands back. -/
theorem decode_encode (i : Instr) (rest : List Byte) : decode (encode i ++ rest) = .ok (i, rest) := by
  cases i with
  | nop u => exact decode_opcodeByte [] rest rfl rfl
  | add u => exact decode_opcodeByte [] rest rfl rfl
  | sub u => exact decode_opcodeByte [] rest rfl rfl
  | inc r => exact decode_opcodeByte [] rest rfl rfl
  | cpy sm dm src dst => exact decode_opcodeByte [src ++ dst] rest rfl (assemble_cpy sm dm src dst)
  | mov sm dm src dst => exact decode_opcodeByte [src ++ dst] rest rfl (assemble_mov sm dm src dst)
  | ld r imm => exact decode_opcodeByte [imm] rest rfl rfl
  | lda r addr => exact decode_opcodeByte [addr] rest rfl rfl
  | st r addr => exact decode_opcodeByte [addr] rest rfl rfl
  | sta u src ptr => exact decode_opcodeByte [src ++ ptr] rest rfl (assemble_sta u src ptr)
  | jmp r => exact decode_opcodeByte [] rest rfl rfl
  | hlt u => exact decode_opcodeByte [] rest rfl rfl
  | je r => exact decode_opcodeByte [] rest rfl rfl
  | jne r => exact decode_opcodeByte [] rest rfl rfl
  | cjp code a b => exact decode_opcodeByte [a ++ b] rest rfl (assemble_cjp code a b)
  | prl u => exact decode_opcodeByte [] rest rfl rfl

/-! ### The two parts of an instruction's opcode byte (R60, R71) -/

/-- The opcode nibble of an instruction's encoding (`encode_eq_cons`). -/
def Instr.opcode : Instr → Nibble
  | .nop _ => 0x0#4 | .add _ => 0x1#4 | .sub _ => 0x2#4 | .inc _ => 0x3#4
  | .cpy _ _ _ _ => 0x4#4 | .mov _ _ _ _ => 0x5#4 | .ld _ _ => 0x6#4 | .lda _ _ => 0x7#4
  | .st _ _ => 0x8#4 | .sta _ _ _ => 0x9#4 | .jmp _ => 0xA#4 | .hlt _ => 0xB#4
  | .je _ => 0xC#4 | .jne _ => 0xD#4 | .cjp _ _ _ => 0xE#4 | .prl _ => 0xF#4

/-- The operand nibble of an instruction's encoding (`encode_eq_cons`). -/
def Instr.operand : Instr → Nibble
  | .nop u | .add u | .sub u | .hlt u | .prl u | .sta u _ _ => u
  | .inc r | .ld r _ | .lda r _ | .st r _ | .jmp r | .je r | .jne r => r
  | .cpy sm dm _ _ | .mov sm dm _ _ => modeNibble sm dm
  | .cjp code _ _ => code

theorem encode_eq_cons (i : Instr) : ∃ imms, encode i = opcodeByte i.opcode i.operand :: imms := by
  cases i <;> exact ⟨_, rfl⟩

/-! ### Encoding what was decoded -/

/-- The opcode nibble that selected a variant is that of the instruction made of it. -/
theorem opcode_of_assemble {op operand : Nibble} {imms : List Byte} {i : Instr}
    (hcore : assemble (opMap op) operand imms = .core i) : i.opcode = op := by
  obtain ⟨⟨k, hk⟩⟩ := op
  interval_cases k <;> obtain rfl := Decoded.core.inj hcore <;> rfl

/-- An instruction made of an operand nibble and all its immediates is encoded by these: no bit of them is lost. -/
theorem encode_of_assemble {v : Variant} {operand : Nibble} {imms : List Byte} {i : Instr}
    (hlen : imms.length = v.immCount) (hcore : assemble v operand imms = .core i) :
    encode i = opcodeByte i.opcode operand :: imms := by
  cases v with
  | jeq | prt | prd => exact nomatch hcore
  | nop | add | sub | inc | jmp | hlt | je | jne | prl =>
    obtain rfl := List.eq_nil_of_length_eq_zero hlen
    obtain rfl := Decoded.core.inj hcore
    rfl
  | ld | lda | st =>
    obtain ⟨imm, rfl⟩ := List.length_eq_one_iff.mp hlen
    obtain rfl := Decoded.core.inj hcore
    rfl
  | cpy | mov | sta | cjp =>
    obtain ⟨imm, rfl⟩ := List.length_eq_one_iff.mp hlen
    obtain rfl := Decoded.core.inj hcore
    simp only [encode, Instr.opcode, List.getD_cons_zero, modeNibble_highTag_lowTag, highNibble_append_lowNibble]

/-- What it takes for bytes to decode under the map of R71: the immediates are there, and they and the opcode byte's
nibbles are what the instruction is made of. -/
theorem decode_cons_eq_ok_iff {b : Byte} {bytes rest : List Byte} {i : Instr} :
    decode (b :: bytes) = .ok (i, rest) ↔
      (opMap (highNibble b)).immCount ≤ bytes.length ∧
      assemble (opMap (highNibble b)) (lowNibble b) (bytes.take (opMap (highNibble b)).immCount) = .core i ∧
      rest = bytes.drop (opMap (highNibble b)).immCount := by
  by_cases hlen : (opMap (highNibble b)).immCount ≤ bytes.length
  case pos =>
    obtain ⟨j, hcore, -⟩ := assemble_of_mem_opTable (opMap_mem_opTable (highNibble b)) (lowNibble b)
      (bytes.take (opMap (highNibble b)).immCount)
    have hdecode : decode (b :: bytes) = .ok (j, bytes.drop (opMap (highNibble b)).immCount) :=
      decode_of_decodeWith_core (by rw [decodeWith_of_immCount_le opMap hlen, hcore])
    rw [hdecode, hcore]
    simp [hlen, eq_comm]
  case neg =>
    have htruncated : decodeWith opMap (b :: bytes) = .error .truncated := if_pos (Nat.lt_of_not_le hlen)
    rw [decode, htruncated]
    simp [hlen]

theorem encode_of_decode {bytes rest : List Byte} {i : Instr} (h : decode bytes = .ok (i, rest)) :
    encode i ++ rest = bytes := by
  cases bytes with
  | nil => exact nomatch h
  | cons b bytes =>
    obtain ⟨hlen, hcore, rfl⟩ := decode_cons_eq_ok_iff.mp h
    rw [encode_of_assemble (List.length_take_of_le hlen) hcore, opcode_of_assemble hcore, opcodeByte,
      highNibble_append_lowNibble, List.cons_append, List.take_append_drop]

/-! ### The opcode map and the surplus variants (R70, R71) -/

theorem decodeWith_opMap_ne_surplus (bytes rest : List Byte) (x : Surplus) :
    decodeWith opMap bytes ≠ .ok (.surplus x, rest) := by
  cases bytes with
  | nil => exact nofun
  | cons b bytes =>
    intro h
    rw [decodeWith] at h
    split at h
    next => exact nomatch h
    next =>
      obtain ⟨i, hcore, -⟩ := assemble_of_mem_opTable (opMap_mem_opTable (highNibble b)) (lowNibble b)
        (bytes.take (opMap (highNibble b)).immCount)
      rw [decodeOpcode_fst, decodeOpcode_snd, hcore] at h
      exact nomatch h

end Sys2Proof

namespace Sys2Proof.Proofs

/-- Settles O3: by the row of each instruction (`decode_encode`). -/
theorem decodeOfEncodeIsIdentity : Obligations.DecodeOfEncodeIsIdentity := decode_encode

/-- Settles O4: the immediates that decoding took and the rest that it handed back are together all that followed the
opcode byte. -/
theorem encodeOfDecodeIsIdentity : Obligations.EncodeOfDecodeIsIdentity := fun _ _ _ => encode_of_decode

/-- Settles O6: every row of the map's table is one of the sixteen assigned variants. -/
theorem defaultMapReachesNoSurplusVariant : Obligations.DefaultMapReachesNoSurplusVariant :=
  ⟨⟨rfl, rfl, rfl⟩, decodeWith_opMap_ne_surplus⟩

/-- Settles O1: each row is its opcode nibble's variant, made of the operand nibble and of the immediates that it asks
for; the two tags and the two nibbles of a format are first read as the nibble and the byte they make up. -/
theorem opcodeMapDecodesEveryRow : Obligations.OpcodeMapDecodesEveryRow := by
  intro u p q m n b rest
  have hpair : BitVec.ofNat 8 (16 * p.toNat + q.toNat) = p ++ q := (opcodeByte_eq_ofNat p q).symm
  have hmodes (k : Nat) : k + 4 * m.toNat + n.toNat = k + (modeNibble m n).toNat := by
    rw [modeNibble_toNat, Nat.add_assoc]
  have hone (imm : Byte) : 1 ≤ (imm :: rest).length := Nat.le_add_left 1 _
  rw [hpair, hmodes, hmodes]
  exact ⟨decode_ofNat_cons (op := 0x0#4) (Nat.zero_le _) rfl, decode_ofNat_cons (op := 0x1#4) (Nat.zero_le _) rfl,
    decode_ofNat_cons (op := 0x2#4) (Nat.zero_le _) rfl, decode_ofNat_cons (op := 0x3#4) (Nat.zero_le _) rfl,
    decode_ofNat_cons (op := 0x4#4) (hone _) (assemble_cpy m n p q),
    decode_ofNat_cons (op := 0x5#4) (hone _) (assemble_mov m n p q),
    decode_ofNat_cons (op := 0x6#4) (hone b) rfl, decode_ofNat_cons (op := 0x7#4) (hone b) rfl,
    decode_ofNat_cons (op := 0x8#4) (hone b) rfl, decode_ofNat_cons (op := 0x9#4) (hone _) (assemble_sta u p q),
    decode_ofNat_cons (op := 0xA#4) (Nat.zero_le _) rfl, decode_ofNat_cons (op := 0xB#4) (Nat.zero_le _) rfl,
    decode_ofNat_cons (op := 0xC#4) (Nat.zero_le _) rfl, decode_ofNat_cons (op := 0xD#4) (Nat.zero_le _) rfl,
    decode_ofNat_cons (op := 0xE#4) (hone _) (assemble_cjp u p q), decode_ofNat_cons (op := 0xF#4) (Nat.zero_le _) rfl⟩

/-- Settles O2: the decoder, run on the eight words. -/
theorem writtenWordsDecode : Obligations.WrittenWordsDecode := ⟨rfl, rfl, rfl, rfl, rfl, rfl, rfl, rfl⟩

end Sys2Proof.Proofs
end

section
/-! PROOF. The step as the decoded instruction after its fetch (spec/40_step_cycle.md R80 to R84): the bytes at the
program counter, what they decode to, when a step answers, and a word placed at the program counter. -/

namespace Sys2Proof

/-! ### Lengths (R64, R73) -/

theorem opMap_immCount_le_one (op : Nibble) : (opMap op).immCount ≤ 1 := by revert op; decide

theorem Instr.byteLength_eq (i : Instr) :
    i.byteLength = if i.opcode.toNat ∈ [4, 5, 6, 7, 8, 9, 0xE] then 2 else 1 := by cases i <;> rfl

theorem Instr.byteLength_eq_one_or_two (i : Instr) : i.byteLength = 1 ∨ i.byteLength = 2 := by
  rw [i.byteLength_eq]
  split
  · exact .inr rfl
  · exact .inl rfl

theorem byteLength_of_assemble {op operand : Nibble} {imms : List Byte} {i : Instr}
    (hcore : assemble (opMap op) operand imms = .core i) : i.byteLength = (opMap op).immCount + 1 := by
  obtain ⟨j, hj, hlen⟩ := assemble_of_mem_opTable (opMap_mem_opTable op) operand imms
  obtain rfl := Decoded.core.inj (hj.symm.trans hcore)
  exact hlen

end Sys2Proof

namespace Sys2Proof.Machine

/-! ### The bytes at the program counter (R18, R46) -/

theorem State.bytesFrom_take (s : State) {k n : Nat} (hle : k ≤ n) (i : Byte) :
    (s.bytesFrom n i).take k = s.bytesFrom k i := by
  induction k generalizing n i with
  | zero => rfl
  | succ k ih =>
    obtain ⟨n, rfl⟩ := Nat.exists_eq_add_of_le' hle
    exact congrArg (_ :: ·) (ih (Nat.le_of_succ_le_succ hle) (i + 1))

theorem State.bytesAtPc_two (s : State) : s.bytesAtPc 2 = s.readMem s.pc.toNat :: s.bytesFrom 1 (s.pc + 1) := rfl

/-- Two bytes are enough for any instruction of the map of R71. -/
theorem State.bytesAtPc_decode (s : State) : ∃ i rest, decode (s.bytesAtPc 2) = .ok (i, rest) := by
  obtain ⟨i, hdecode, -⟩ := decode_of_immCount_le (b := s.readMem s.pc.toNat) (rest := s.bytesFrom 1 (s.pc + 1))
    (opMap_immCount_le_one _)
  exact ⟨i, _, hdecode⟩

/-- The byte at the program counter is the opcode byte of what decodes there. -/
theorem State.readMem_pc_of_decode {s : State} {i : Instr} {rest : List Byte}
    (h : decode (s.bytesAtPc 2) = .ok (i, rest)) : s.readMem s.pc.toNat = opcodeByte i.opcode i.operand := by
  obtain ⟨imms, himms⟩ := encode_eq_cons i
  have hbytes := encode_of_decode h
  rw [himms, List.cons_append, State.bytesAtPc_two] at hbytes
  exact (List.cons.inj hbytes).1.symm

theorem State.nextOpcode_of_decode {s : State} {i : Instr} {rest : List Byte}
    (h : decode (s.bytesAtPc 2) = .ok (i, rest)) : s.nextOpcode = i.opcode := by
  rw [State.nextOpcode, State.readMem_pc_of_decode h]
  exact highNibble_append _ _

theorem State.operand_of_decode {s : State} {i : Instr} {rest : List Byte}
    (h : decode (s.bytesAtPc 2) = .ok (i, rest)) : lowNibble (s.readMem s.pc.toNat) = i.operand := by
  rw [State.readMem_pc_of_decode h]
  exact lowNibble_append _ _

/-! ### The step (R80) -/

/-- A step of a running machine is the instruction that its bytes decode to, in the state after their fetch. -/
theorem step_of_decode {s : State} {i : Instr} {rest : List Byte} (hrun : s.halted = false)
    (h : decode (s.bytesAtPc 2) = .ok (i, rest)) : step s = exec i (s.afterFetch i.byteLength) := by
  rw [State.bytesAtPc_two, decode_cons_eq_ok_iff] at h
  obtain ⟨-, hcore, -⟩ := h
  rw [State.bytesFrom_take s (opMap_immCount_le_one _)] at hcore
  rw [byteLength_of_assemble hcore]
  exact step_of_assemble_core hrun hcore

/-- What a step that answered has run. -/
theorem exists_decode_of_step {s t : State} (h : step s = .next t) :
    ∃ i rest, decode (s.bytesAtPc 2) = .ok (i, rest) ∧ exec i (s.afterFetch i.byteLength) = .next t := by
  obtain ⟨i, rest, hdecode⟩ := s.bytesAtPc_decode
  exact ⟨i, rest, hdecode, (step_of_decode (running_of_step h) hdecode).symm.trans h⟩

theorem stepSafe_of_running {s : State} (hrun : s.halted = false) : s.stepSafe := by
  obtain ⟨-, t, hstep, -⟩ := stepWith_effect hardware hrun
  exact ⟨t, hstep⟩

/-- A run of a halted machine ends before its first step (R122). -/
theorem engineRun_of_halted {s : State} (hhalted : s.halted = true) (fuel : Nat) :
    engineRun (fuel + 1) s = .error .cpuHalted s := by
  simp only [engineRun, stepWith_of_halted hardware hhalted]

/-! ### A word placed at the program counter -/

theorem decode_of_decodeTableWord {nbits w : Nat} {i : Instr} (h : decodeTableWord nbits w = some i) :
    ∃ rest, decode (wordBytes nbits w) = .ok (i, rest) := by
  rw [decodeTableWord] at h
  split at h
  next j rest hdecode =>
    obtain rfl := Option.some.inj h
    exact ⟨rest, hdecode⟩
  next => exact nomatch h

/-- A word of at most 16 bits stands in two bytes. -/
theorem wordBytes_length {nbits w : Nat} (h : nbits ≤ 16) : (wordBytes nbits w).length = 2 := by
  simp only [wordBytes, maxInstrBytes, List.length_append, List.length_map, List.length_range, List.length_replicate]
  omega

/-- One index and the next never name the same cell: 128 does not divide 1. -/
theorem memIndex_succ_ne (a : Byte) : memIndex a.toNat ≠ memIndex (a + 1).toNat := by
  rw [memIndex_eq_mod, memIndex_eq_mod, BitVec.toNat_add, show (1 : Byte).toNat = 1 from rfl]
  omega

theorem placeBytes_two (s : State) (a b0 b1 : Byte) :
    placeBytes s a [b0, b1] = { s with mem := (s.mem.write a.toNat b0).write (a + 1).toNat b1 } := rfl

/-- Two placed bytes are what the fetch then reads. -/
theorem bytesAtPc_placeBytes_two (s : State) (b0 b1 : Byte) :
    (placeBytes s s.pc [b0, b1]).bytesAtPc 2 = [b0, b1] := by
  have hfirst : (placeBytes s s.pc [b0, b1]).readMem s.pc.toNat = b0 := by
    rw [placeBytes_two, State.readMem, Memory.read_write, if_neg (memIndex_succ_ne s.pc), Memory.read_write, if_pos rfl]
  have hsecond : (placeBytes s s.pc [b0, b1]).readMem (s.pc + 1).toNat = b1 := by
    rw [placeBytes_two, State.readMem, Memory.read_write, if_pos rfl]
  exact congrArg₂ (fun x y => [x, y]) hfirst hsecond

theorem placeBytes_two_readMem (s : State) (i b0 b1 : Byte) {a : Nat} (hfirst : memIndex a ≠ memIndex i.toNat)
    (hsecond : memIndex a ≠ memIndex (i + 1).toNat) : (placeBytes s i [b0, b1]).readMem a = s.readMem a := by
  rw [placeBytes_two, State.readMem, Memory.read_write, if_neg hsecond, Memory.read_write, if_neg hfirst, State.readMem]

end Sys2Proof.Machine

namespace Sys2Proof.Proofs

open Sys2Proof.Machine

/-- Settles O7: the decoded instruction runs after the fetch of its own bytes, and a fetch of one or two bytes moves
`pc` by as many, each move notified. -/
theorem stepRunsDecodedInstruction : Obligations.StepRunsDecodedInstruction := by
  intro s i rest hrun hdecode
  refine ⟨step_of_decode hrun hdecode, ?pc, s.afterFetch_regs _, s.afterFetch_mem _, (s.afterFetch_halted _).trans hrun,
    ⟨s.afterFetch_outLog _, s.afterFetch_outCount _⟩, s.afterFetch_error _, s.afterFetch_faults _, ?events⟩
  case pc => rw [State.afterFetch_pc, BitVec.toNat_add, BitVec.toNat_ofNat, Nat.add_mod_mod]
  case events =>
    rw [State.afterFetch_events]
    obtain hlen | hlen := i.byteLength_eq_one_or_two
    · rw [hlen, if_pos rfl]
      rfl
    · have hnext : s.pc + 1 + 1 = s.pc + 2 := pc_add_succ s.pc 1
      rw [hlen, if_neg (by decide), fetchEvents, fetchEvents, fetchEvents, hnext]

/-- Settles O8: a halted machine is refused before the fetch; a running one fetches, and every instruction answers. -/
theorem onlyAHaltedMachineMakesNoStep : Obligations.OnlyAHaltedMachineMakesNoStep :=
  fun _ => ⟨fun hhalted => ⟨step_of_halted hhalted, engineRun_of_halted hhalted⟩, stepSafe_of_running⟩

/-- Settles O9: a word of at most 16 bits is two bytes, which stand in two different cells, those of the fetch. -/
theorem placedWordIsRunNext : Obligations.PlacedWordIsRunNext := by
  intro s nbits w i hbits hword
  obtain ⟨rest, hdecode⟩ := decode_of_decodeTableWord hword
  obtain ⟨b0, b1, hbytes⟩ := List.length_eq_two.mp (wordBytes_length (w := w) hbits)
  rw [hbytes, ← bytesAtPc_placeBytes_two s] at hdecode
  rw [State.withFetchWord, hbytes]
  exact ⟨step_of_decode rfl hdecode, rfl, rfl, rfl, rfl, rfl, rfl, rfl, rfl,
    fun _ hfirst hsecond => placeBytes_two_readMem s s.pc b0 b1 hfirst hsecond⟩

end Sys2Proof.Proofs
end

section
/-! PROOF. CPY and MOV (spec/42_copy_move.md R95 to R97) and the reduction of register numbers (spec/10_state.md
R14): which tags give operands, and what the two instructions do with them or without. -/

namespace Sys2Proof.Machine

/-! ### Which tags give operands (R43, R95, R96) -/

theorem exists_operands_of_not_cpyBadMode {sm dm : Tag} (h : ¬ cpyBadMode sm dm) (src dst : Nibble) :
    ∃ source l, sourceOperand sm src = some source ∧ destOperand dm dst = some l := by
  obtain ⟨hsm, hd0, hd3⟩ : sm ≠ 3#2 ∧ dm ≠ 0#2 ∧ dm ≠ 3#2 := by simpa only [cpyBadMode, not_or] using h
  have hsource : ∃ source, sourceOperand sm src = some source := by
    obtain ⟨-, h⟩ | ⟨-, h⟩ | ⟨-, h⟩ | ⟨h3, -⟩ := sourceOperand_cases sm src hardware
    · exact ⟨_, h⟩
    · exact ⟨_, h⟩
    · exact ⟨_, h⟩
    · exact absurd h3 hsm
  have hdest : ∃ l, destOperand dm dst = some l := by
    obtain ⟨-, h⟩ | ⟨-, h⟩ | ⟨h0 | h3, -⟩ := destOperand_cases dm dst hardware
    · exact ⟨_, h⟩
    · exact ⟨_, h⟩
    · exact absurd h0 hd0
    · exact absurd h3 hd3
  obtain ⟨source, hsource⟩ := hsource
  obtain ⟨l, hdest⟩ := hdest
  exact ⟨source, l, hsource, hdest⟩

/-- MOV cannot use what CPY cannot, nor a literal source. -/
theorem movBadMode_iff (sm dm : Tag) : movBadMode sm dm ↔ sm = 0#2 ∨ cpyBadMode sm dm := Iff.rfl

theorem exists_operands_of_not_movBadMode {sm dm : Tag} (h : ¬ movBadMode sm dm) (src dst : Nibble) :
    ∃ k l, sourceOperand sm src = some (.location k) ∧ destOperand dm dst = some l := by
  obtain ⟨hliteral, hcpy⟩ : sm ≠ 0#2 ∧ ¬ cpyBadMode sm dm := by simpa only [movBadMode_iff, not_or] using h
  obtain ⟨source, l, hsource, hdest⟩ := exists_operands_of_not_cpyBadMode hcpy src dst
  cases source with
  | location k => exact ⟨k, l, hsource, hdest⟩
  | literal v =>
    obtain ⟨h0, -⟩ | ⟨-, h⟩ | ⟨-, h⟩ | ⟨-, h⟩ := sourceOperand_cases sm src hardware
    · exact absurd h0 hliteral
    · exact nomatch hsource.symm.trans h
    · exact nomatch hsource.symm.trans h
    · exact nomatch hsource.symm.trans h

theorem no_operand_of_cpyBadMode {sm dm : Tag} (h : cpyBadMode sm dm) (src dst : Nibble) :
    sourceOperand sm src = none ∨ destOperand dm dst = none := by
  obtain rfl | rfl | rfl := h
  · exact .inl rfl
  · exact .inr rfl
  · exact .inr rfl

/-! ### The two instructions (R95, R96) -/

theorem exec_cpy_of_operands {sm dm : Tag} {src dst : Nibble} {source : Source} {l : Location}
    (hsource : sourceOperand sm src = some source) (hdest : destOperand dm dst = some l) (s : State) :
    exec (.cpy sm dm src dst) s = .next (s.writeLoc l (byteInt (s.readSource source))) := by
  simp only [exec, execCpy, hsource, hdest]

theorem exec_cpy_of_badMode {sm dm : Tag} (h : cpyBadMode sm dm) (src dst : Nibble) (s : State) :
    exec (.cpy sm dm src dst) s = .next (s.raise (.invalidAddressingMode sm dm)) := by
  simp only [exec, execCpy]
  split
  next hsource hdest =>
    obtain hnone | hnone := no_operand_of_cpyBadMode h src dst
    · exact nomatch hsource.symm.trans hnone
    · exact nomatch hdest.symm.trans hnone
  next => rfl

theorem exec_mov_of_operands {sm dm : Tag} {src dst : Nibble} {k l : Location}
    (hsource : sourceOperand sm src = some (.location k)) (hdest : destOperand dm dst = some l) (s : State) :
    exec (.mov sm dm src dst) s = .next ((s.writeLoc l (byteInt (s.readLoc k))).writeLoc k 0) := by
  simp only [exec, execMov, hsource, hdest]

theorem exec_mov_of_badMode {sm dm : Tag} (h : movBadMode sm dm) (src dst : Nibble) (s : State) :
    exec (.mov sm dm src dst) s = .next (s.raise (.invalidAddressingMode sm dm)) := by
  simp only [exec, execMov]
  split
  next hsource hdest =>
    obtain rfl | hcpy := (movBadMode_iff sm dm).mp h
    · exact nomatch hsource
    · obtain hnone | hnone := no_operand_of_cpyBadMode hcpy src dst
      · exact nomatch hsource.symm.trans hnone
      · exact nomatch hdest.symm.trans hnone
  next => rfl

/-! ### A copy and a zeroing as an instruction's whole effect -/

theorem State.readLoc_mem (s : State) (i : Nat) : s.readLoc (.mem i) = s.readMem i := rfl

theorem SameCell.readLoc_eq {s : State} {l k : Location} (h : SameCell l k) : s.readLoc l = s.readLoc k := by
  cases l with
  | reg r =>
    cases k with
    | reg q => rw [show r = q from h]
    | mem j => exact h.elim
  | mem i =>
    cases k with
    | reg q => exact h.elim
    | mem j => rw [State.readLoc_mem, State.readLoc_mem, ← State.readMem_mod, show i % 128 = j % 128 from h,
        State.readMem_mod]

/-- What a cell reads as after a write of the same cell. -/
theorem State.writeLoc_readLoc_sameCell (s : State) {l k : Location} (b : Byte) (h : SameCell l k) :
    (s.writeLoc l (byteInt b)).readLoc k = b := by
  rw [← h.readLoc_eq, State.writeLoc_readLoc, truncate_byteInt]

/-- A byte written to a cell is read back there; the notification tells it, and nothing else changes. -/
theorem State.writeLoc_byte_spec (s : State) (l : Location) (b : Byte) :
    (s.writeLoc l (byteInt b)).readLoc l = b ∧ CellsSameBut s (s.writeLoc l (byteInt b)) [l] ∧
      ControlSame s (s.writeLoc l (byteInt b)) ∧ OutputSame s (s.writeLoc l (byteInt b)) ∧
      (s.writeLoc l (byteInt b)).events = s.events ++ [writeEvent l b] := by
  obtain ⟨hpc, hhalted, herror, hfaults, hlog, hcount, hevents⟩ := s.writeLoc_rest l (byteInt b) hardware
  rw [truncate_byteInt] at hevents
  exact ⟨s.writeLoc_readLoc_sameCell b (SameCell.refl l hardware), s.writeLoc_cells l _,
    ⟨hpc, hhalted, herror, hfaults⟩, ⟨hlog, hcount⟩, hevents⟩

theorem CellsSameBut.trans {s t u : State} {ls ks : List Location} (hst : CellsSameBut s t ls)
    (htu : CellsSameBut t u ks) : CellsSameBut s u (ls ++ ks) := fun c hc =>
  (htu c fun k hk => hc k (List.mem_append_right ls hk)).trans (hst c fun l hl => hc l (List.mem_append_left ks hl))

/-- A byte stored in one cell and then another byte in a second. -/
theorem State.writeLoc_writeLoc_spec (s : State) (l k : Location) (b d : Byte) :
    ((s.writeLoc l (byteInt b)).writeLoc k (byteInt d)).readLoc k = d ∧
      (¬ SameCell l k → ((s.writeLoc l (byteInt b)).writeLoc k (byteInt d)).readLoc l = b) ∧
      CellsSameBut s ((s.writeLoc l (byteInt b)).writeLoc k (byteInt d)) [l, k] ∧
      ControlSame s ((s.writeLoc l (byteInt b)).writeLoc k (byteInt d)) ∧
      OutputSame s ((s.writeLoc l (byteInt b)).writeLoc k (byteInt d)) ∧
      ((s.writeLoc l (byteInt b)).writeLoc k (byteInt d)).events = s.events ++ [writeEvent l b, writeEvent k d] := by
  obtain ⟨hread, hcells, ⟨hpc, hhalted, herror, hfaults⟩, ⟨hlog, hcount⟩, hevents⟩ := s.writeLoc_byte_spec l b
  obtain ⟨kread, kcells, ⟨kpc, khalted, kerror, kfaults⟩, ⟨klog, kcount⟩, kevents⟩ :=
    (s.writeLoc l (byteInt b)).writeLoc_byte_spec k d
  refine ⟨kread, ?first, hcells.trans kcells,
    ⟨kpc.trans hpc, khalted.trans hhalted, kerror.trans herror, kfaults.trans hfaults⟩,
    ⟨klog.trans hlog, kcount.trans hcount⟩, ?events⟩
  case first => exact fun hne => (State.writeLoc_readLoc_other _ _ hne).trans hread
  case events => rw [kevents, hevents, List.append_assoc, List.singleton_append]

theorem State.raise_spec (s : State) (e : CoreError) : RaisedOnly s (s.raise e) e :=
  ⟨rfl, rfl, rfl, rfl, fun _ => rfl, fun _ => rfl, ⟨rfl, rfl⟩, rfl⟩

/-! ### The operands as the statements write them -/

theorem sourceOperand_literal (n : Nibble) : sourceOperand 0#2 n = some (.literal (n.zeroExtend 8)) := rfl

theorem sourceOperand_reg (n : Nibble) : sourceOperand 1#2 n = some (.location (.reg (regOf n))) := rfl

theorem sourceOperand_mem (n : Nibble) : sourceOperand 2#2 n = some (.location (.mem n.toNat)) := rfl

theorem destOperand_reg (n : Nibble) : destOperand 1#2 n = some (.reg (regOf n)) := rfl

theorem destOperand_mem (n : Nibble) : destOperand 2#2 n = some (.mem n.toNat) := rfl

/-- A nibble widened to a byte is the byte of the same number. -/
theorem zeroExtend_eq_of_toNat_eq {n : Nibble} {v : Byte} (h : v.toNat = n.toNat) : n.zeroExtend 8 = v := by
  apply BitVec.eq_of_toNat_eq
  rw [h]
  exact BitVec.toNat_setWidth_of_le (by decide)

theorem exists_source_of_value {sm : Tag} {src : Nibble} {s : State} {v : Byte}
    (h : (sm = 0#2 ∧ v.toNat = src.toNat) ∨ (sm = 1#2 ∧ v = s.readReg (regOf src)) ∨
      (sm = 2#2 ∧ v = s.readMem src.toNat)) :
    ∃ source, sourceOperand sm src = some source ∧ s.readSource source = v := by
  obtain ⟨rfl, hv⟩ | ⟨rfl, rfl⟩ | ⟨rfl, rfl⟩ := h
  · exact ⟨_, sourceOperand_literal src, zeroExtend_eq_of_toNat_eq hv⟩
  · exact ⟨_, sourceOperand_reg src, rfl⟩
  · exact ⟨_, sourceOperand_mem src, rfl⟩

theorem sourceOperand_of_location {sm : Tag} {src : Nibble} {k : Location}
    (h : (sm = 1#2 ∧ k = .reg (regOf src)) ∨ (sm = 2#2 ∧ k = .mem src.toNat)) :
    sourceOperand sm src = some (.location k) := by
  obtain ⟨rfl, rfl⟩ | ⟨rfl, rfl⟩ := h
  · exact sourceOperand_reg src
  · exact sourceOperand_mem src

theorem destOperand_of_location {dm : Tag} {dst : Nibble} {l : Location}
    (h : (dm = 1#2 ∧ l = .reg (regOf dst)) ∨ (dm = 2#2 ∧ l = .mem dst.toNat)) : destOperand dm dst = some l := by
  obtain ⟨rfl, rfl⟩ | ⟨rfl, rfl⟩ := h
  · exact destOperand_reg dst
  · exact destOperand_mem dst

/-- A location whose memory index needs no reduction: each cell has one such name. -/
def Location.Reduced : Location → Prop
  | .reg _ => True
  | .mem i => memIndex i = i

theorem Location.Reduced.eq_of_sameCell {l k : Location} (hl : l.Reduced) (hk : k.Reduced) (h : SameCell l k) :
    l = k := by
  cases l with
  | reg r =>
    cases k with
    | reg q => exact congrArg Location.reg h
    | mem j => exact h.elim
  | mem i =>
    cases k with
    | reg q => exact h.elim
    | mem j => exact congrArg Location.mem (hl.symm.trans (Eq.trans h hk))

/-- A sub-index is below the memory size. -/
theorem Location.reduced_nibble (n : Nibble) : (Location.mem n.toNat).Reduced := by
  have := n.isLt
  exact memIndex_of_lt (c := hardware) (by rw [hardware_memSize]; omega)

theorem reduced_of_destOperand {dm : Tag} {dst : Nibble} {l : Location} (h : destOperand dm dst = some l) :
    l.Reduced := by
  obtain ⟨-, hl⟩ | ⟨-, hl⟩ | ⟨-, hl⟩ := destOperand_cases dm dst hardware
  · obtain rfl := Option.some.inj (h.symm.trans hl)
    trivial
  · obtain rfl := Option.some.inj (h.symm.trans hl)
    exact Location.reduced_nibble dst
  · exact nomatch h.symm.trans hl

theorem reduced_of_sourceOperand {sm : Tag} {src : Nibble} {k : Location}
    (h : sourceOperand sm src = some (.location k)) : k.Reduced := by
  obtain ⟨-, hk⟩ | ⟨-, hk⟩ | ⟨-, hk⟩ | ⟨-, hk⟩ := sourceOperand_cases sm src hardware
  · exact nomatch h.symm.trans hk
  · obtain rfl := Source.location.inj (Option.some.inj (h.symm.trans hk))
    trivial
  · obtain rfl := Source.location.inj (Option.some.inj (h.symm.trans hk))
    exact Location.reduced_nibble src
  · exact nomatch h.symm.trans hk

/-! ### Register numbers alike modulo 7 (R14) -/

theorem regOf_eq_of_mod_eq {r q : Nibble} (h : r.toNat % 7 = q.toNat % 7) : regOf r = regOf q :=
  Reg.index_injective ((rx_index r.toNat).trans (h.trans (rx_index q.toNat).symm))

theorem exec_cpy (sm dm : Tag) (src dst : Nibble) (s : State) :
    exec (.cpy sm dm src dst) s = execCpy sm dm src dst s := rfl

theorem exec_mov (sm dm : Tag) (src dst : Nibble) (s : State) :
    exec (.mov sm dm src dst) s = execMov sm dm src dst s := rfl

end Sys2Proof.Machine

namespace Sys2Proof.Proofs

open Sys2Proof.Machine

/-- Settles O13: CPY is one write of the source's value, or the raise where a tag gives no operand. -/
theorem cpyCopiesSourceToDestination : Obligations.CpyCopiesSourceToDestination := by
  intro sm dm src dst s
  obtain ⟨-, -, -, -, hdecode, -⟩ := opcodeMapDecodesEveryRow 0 src dst sm dm 0 []
  refine ⟨hdecode, ?copies, fun hbad => ⟨_, exec_cpy_of_badMode hbad src dst s, s.raise_spec _⟩⟩
  case copies =>
    intro v l hvalue hcell
    obtain ⟨source, hsource, rfl⟩ := exists_source_of_value hvalue
    exact ⟨_, exec_cpy_of_operands hsource (destOperand_of_location hcell) s, s.writeLoc_byte_spec l _⟩

/-- Settles O14: MOV is two writes, of the copy and then of the zero. Sub-indices are below the memory size, so that two
operands name one cell only where they are the same location. -/
theorem movCopiesThenZeroesTheSource : Obligations.MovCopiesThenZeroesTheSource := by
  intro sm dm src dst s
  obtain ⟨-, -, -, -, -, hdecode, -⟩ := opcodeMapDecodesEveryRow 0 src dst sm dm 0 []
  refine ⟨hdecode, ?moves, fun hbad => ⟨_, exec_mov_of_badMode hbad src dst s, s.raise_spec _⟩⟩
  case moves =>
    intro k l hk hl
    have hsource := sourceOperand_of_location hk
    have hdest := destOperand_of_location hl
    obtain ⟨hzero, hcopy, hframe⟩ := s.writeLoc_writeLoc_spec l k (s.readLoc k) 0
    have hdiffer (hne : l ≠ k) : ¬ SameCell l k := fun hsame =>
      hne ((reduced_of_destOperand hdest).eq_of_sameCell (reduced_of_sourceOperand hsource) hsame)
    exact ⟨_, exec_mov_of_operands hsource hdest s, hzero, fun hne => hcopy (hdiffer hne), hframe⟩

/-- Settles O35: every meaning takes a register number through `regOf` alone, which reduces it modulo 7. -/
theorem registerNumbersAliasModSeven : Obligations.RegisterNumbersAliasModSeven := by
  intro r q p b m code u s hmod
  have hreg := regOf_eq_of_mod_eq hmod
  have hsource : sourceOperand 1#2 r = sourceOperand 1#2 q := by rw [sourceOperand_reg, sourceOperand_reg, hreg]
  have hdest : destOperand 1#2 r = destOperand 1#2 q := by rw [destOperand_reg, destOperand_reg, hreg]
  simp only [exec_inc, exec_ld, exec_lda, exec_st, exec_sta, exec_jmp, exec_je, exec_jne, exec_cjp, exec_cpy, exec_mov,
    execCpy, execMov, hreg, hsource, hdest, and_self]

end Sys2Proof.Proofs
end

section
/-! PROOF. The rules of the whole machine (spec/10_state.md R20, R25, spec/20_memory.md R48, spec/60_exceptions.md
R123, R137): what each opcode's instruction does to the state it acts on, said once, and what follows for every
step. -/

namespace Sys2Proof

/-- CPY or MOV with tags that it cannot use (R95, R96). -/
def Instr.badMode : Instr → Prop
  | .cpy sm dm _ _ => Machine.cpyBadMode sm dm
  | .mov sm dm _ _ => Machine.movBadMode sm dm
  | _ => False

end Sys2Proof

namespace Sys2Proof.Machine

/-! ### What each opcode's instruction does -/

/-- The effect of an instruction on the state it acts on, by its opcode: `Effect` of this hardware with what the
instruction has to do with it (`exec_act`). -/
inductive Act (s : State) (i : Instr) : State → Prop
  | stay (hop : i.opcode.toNat ∈ [0x0, 0xC, 0xD, 0xE]) : Act s i s
  | write (l : Location) (v : Int) (hop : i.opcode.toNat ∈ [1, 2, 3, 4, 6, 7, 8, 9]) (hmode : ¬ i.badMode)
      (hcells : s.writtenCells i = [l]) : Act s i (s.writeLoc l v)
  | move (l k : Location) (v w : Int) (hop : i.opcode = 0x5#4) (hmode : ¬ i.badMode)
      (hcells : s.writtenCells i = [l, k]) : Act s i ((s.writeLoc l v).writeLoc k w)
  | raise (hop : i.opcode.toNat ∈ [4, 5]) (hmode : i.badMode) :
      Act s i (s.raise (.invalidAddressingMode (highTag i.operand) (lowTag i.operand)))
  | jumpToNamed (hop : i.opcode.toNat ∈ [0xA, 0xC, 0xD]) : Act s i (s.jumpTo (s.readReg (regOf i.operand)))
  | jumpToRes (hop : i.opcode = 0xE#4) : Act s i (s.jumpTo (s.readReg .res))
  | halt (hop : i.opcode = 0xB#4) : Act s i s.halt
  | printLast (hop : i.opcode = 0xF#4) (hcells : s.writtenCells i = [.reg .op1]) : Act s i s.printOne
  | printMore (hop : i.opcode = 0xF#4) (hcells : s.writtenCells i = [.reg .op1]) :
      Act s i (s.printOne.jumpTo (s.pc - 1))

theorem opcode_mem {op : Nibble} {ops : List Nat} (h : ops.elem op.toNat = true) : op.toNat ∈ ops :=
  List.mem_of_elem_eq_true h

/-- A jump made under a condition is a jump or no effect. -/
theorem Act.jumpWhen {s : State} {i : Instr} {taken : Prop} [Decidable taken] {target : Byte}
    (hjump : Act s i (s.jumpTo target)) (hstay : Act s i s) : Act s i (s.jumpWhen taken target) := by
  by_cases h : taken
  · rwa [State.jumpWhen_of_pos s target h]
  · rwa [State.jumpWhen_of_neg s target h]

theorem exec_cpy_act (sm dm : Tag) (src dst : Nibble) (s : State) :
    ∃ t, exec (.cpy sm dm src dst) s = .next t ∧ Act s (.cpy sm dm src dst) t := by
  by_cases hmode : cpyBadMode sm dm
  case pos =>
    have hraise := Act.raise (s := s) (i := .cpy sm dm src dst) (opcode_mem rfl) hmode
    rw [Instr.operand, highTag_modeNibble, lowTag_modeNibble] at hraise
    exact ⟨_, exec_cpy_of_badMode hmode src dst s, hraise⟩
  case neg =>
    obtain ⟨source, l, hsource, hdest⟩ := exists_operands_of_not_cpyBadMode hmode src dst
    have hcells : s.writtenCells (.cpy sm dm src dst) = [l] := by simp only [State.writtenCells, hsource, hdest]
    exact ⟨_, exec_cpy_of_operands hsource hdest s, .write l _ (opcode_mem rfl) hmode hcells⟩

theorem exec_mov_act (sm dm : Tag) (src dst : Nibble) (s : State) :
    ∃ t, exec (.mov sm dm src dst) s = .next t ∧ Act s (.mov sm dm src dst) t := by
  by_cases hmode : movBadMode sm dm
  case pos =>
    have hraise := Act.raise (s := s) (i := .mov sm dm src dst) (opcode_mem rfl) hmode
    rw [Instr.operand, highTag_modeNibble, lowTag_modeNibble] at hraise
    exact ⟨_, exec_mov_of_badMode hmode src dst s, hraise⟩
  case neg =>
    obtain ⟨k, l, hsource, hdest⟩ := exists_operands_of_not_movBadMode hmode src dst
    have hcells : s.writtenCells (.mov sm dm src dst) = [l, k] := by simp only [State.writtenCells, hsource, hdest]
    exact ⟨_, exec_mov_of_operands hsource hdest s, .move l k _ _ rfl hmode hcells⟩

theorem exec_hlt (u : Nibble) (s : State) : exec (.hlt u) s = .next s.halt := rfl

/-- PRL is the emission and the increment, and then a jump back or none. -/
theorem exec_prl_act (u : Nibble) (s : State) : ∃ t, exec (.prl u) s = .next t ∧ Act s (.prl u) t := by
  refine ⟨_, exec_prl u s, ?_⟩
  by_cases hmore : ¬ s.printOne.readReg .op1 = s.readReg .op2
  · rw [State.jumpWhen_of_pos _ _ hmore]
    exact .printMore rfl rfl
  · rw [State.jumpWhen_of_neg _ _ hmore]
    exact .printLast rfl rfl

/-- What each instruction does. -/
theorem exec_act (i : Instr) (s : State) : ∃ t, exec i s = .next t ∧ Act s i t := by
  cases i with
  | nop u => exact ⟨_, exec_nop u s, .stay (opcode_mem rfl)⟩
  | add u => exact ⟨_, exec_add u s, .write (.reg .res) _ (opcode_mem rfl) id rfl⟩
  | sub u => exact ⟨_, exec_sub u s, .write (.reg .res) _ (opcode_mem rfl) id rfl⟩
  | inc r => exact ⟨_, exec_inc r s, .write (.reg (regOf r)) _ (opcode_mem rfl) id rfl⟩
  | cpy sm dm src dst => exact exec_cpy_act sm dm src dst s
  | mov sm dm src dst => exact exec_mov_act sm dm src dst s
  | ld r imm => exact ⟨_, exec_ld r imm s, .write (.reg (regOf r)) _ (opcode_mem rfl) id rfl⟩
  | lda r addr => exact ⟨_, exec_lda r addr s, .write (.reg (regOf r)) _ (opcode_mem rfl) id rfl⟩
  | st r addr => exact ⟨_, exec_st r addr s, .write (resolve8 addr) _ (opcode_mem rfl) id rfl⟩
  | sta u src ptr =>
    exact ⟨_, exec_sta u src ptr s, .write (resolve8 (s.readReg (regOf ptr))) _ (opcode_mem rfl) id rfl⟩
  | jmp r => exact ⟨_, exec_jmp r s, .jumpToNamed (opcode_mem rfl)⟩
  | hlt u => exact ⟨_, exec_hlt u s, .halt rfl⟩
  | je r => exact ⟨_, exec_je r s, .jumpWhen (.jumpToNamed (opcode_mem rfl)) (.stay (opcode_mem rfl))⟩
  | jne r => exact ⟨_, exec_jne r s, .jumpWhen (.jumpToNamed (opcode_mem rfl)) (.stay (opcode_mem rfl))⟩
  | cjp code a b => exact ⟨_, exec_cjp code a b s, .jumpWhen (.jumpToRes rfl) (.stay (opcode_mem rfl))⟩
  | prl u => exact exec_prl_act u s

/-- What a step that answered did: its fetch, and then the effect of the instruction it decoded. -/
theorem step_act {s t : State} (h : step s = .next t) :
    ∃ i rest, decode (s.bytesAtPc 2) = .ok (i, rest) ∧ Act (s.afterFetch i.byteLength) i t := by
  obtain ⟨i, rest, hdecode, hexec⟩ := exists_decode_of_step h
  obtain ⟨u, hu, hact⟩ := exec_act i (s.afterFetch i.byteLength)
  obtain rfl := Host.Outcome.next.inj (hu.symm.trans hexec)
  exact ⟨i, rest, hdecode, hact⟩

/-! ### What an effect leaves alone -/

theorem cellsSameBut_of_same {s t : State} (hregs : t.regs = s.regs) (hmem : t.mem = s.mem) (ls : List Location) :
    CellsSameBut s t ls
  | .reg r, _ => State.readReg_congr hregs r
  | .mem i, _ => State.readMem_congr hmem i hardware

/-- An instruction changes no cell but those of its operand forms (R104). -/
theorem Act.cellsSameBut {s t : State} {i : Instr} (h : Act s i t) : CellsSameBut s t (s.writtenCells i) := by
  have hprint : CellsSameBut s s.printOne [.reg .op1] := s.printOne_eq ▸ State.writeLoc_cells _ (.reg .op1) _
  cases h with
  | stay | raise | jumpToNamed | jumpToRes | halt => exact cellsSameBut_of_same rfl rfl _
  | write l v _ _ hcells => exact hcells ▸ s.writeLoc_cells l v
  | move l k v w _ _ hcells => exact hcells ▸ (s.writeLoc_cells l v).trans ((s.writeLoc l v).writeLoc_cells k w)
  | printLast _ hcells => exact hcells ▸ hprint
  | printMore _ hcells => exact hcells ▸ hprint

/-- Only CPY, MOV, ST and STA can name a memory cell to write. -/
theorem State.writtenCells_eq_reg (s : State) {i : Instr} (hop : i.opcode.toNat ∉ [4, 5, 8, 9]) :
    ∀ l ∈ s.writtenCells i, ∃ r, l = .reg r := by
  cases i with
  | cpy | mov | st | sta => exact (hop (opcode_mem rfl)).elim
  | nop | jmp | hlt | je | jne | cjp => exact nofun
  | add | sub | inc | ld | lda | prl => exact fun l hl => ⟨_, List.mem_singleton.mp hl⟩

theorem CellsSameBut.memSame {s t : State} {ls : List Location} (h : CellsSameBut s t ls)
    (hreg : ∀ l ∈ ls, ∃ r, l = .reg r) : MemSame s t := by
  refine fun a => h (.mem a) fun l hl => ?_
  obtain ⟨r, rfl⟩ := hreg l hl
  exact id

theorem State.afterFetch_writtenCells (s : State) (n : Nat) (i : Instr) :
    (s.afterFetch n).writtenCells i = s.writtenCells i := by
  cases i with
  | sta u src ptr => rw [State.writtenCells, State.afterFetch_readReg, State.writtenCells]
  | _ => rfl

/-- Only HLT halts (R114, R137). -/
theorem Act.halted_iff {s t : State} {i : Instr} (h : Act s i t) (hrun : s.halted = false) :
    t.halted = true ↔ i.opcode = 0xB#4 := by
  cases h with
  | halt hop => exact iff_of_true rfl hop
  | write l v hop | move l k v w hop =>
    simp only [State.writeLoc_halted, hrun, Bool.false_eq_true, false_iff]
    intro h; simp [h] at hop
  | stay hop | raise hop | jumpToNamed hop | jumpToRes hop | printLast hop | printMore hop =>
    refine iff_of_false (fun h => Bool.false_ne_true (hrun.symm.trans h)) fun h => ?_
    simp [h] at hop

/-- Only PRL emits, one character each time (R25, R110). -/
theorem Act.output {s t : State} {i : Instr} (h : Act s i t) :
    (i.opcode = 0xF#4 → ∃ c : Byte, t.outLog = s.outLog ++ [⟨.chr, c⟩] ∧ t.outCount = s.outCount + 1) ∧
    (i.opcode ≠ 0xF#4 → OutputSame s t) := by
  cases h with
  | printLast hop | printMore hop => exact ⟨fun _ => ⟨_, rfl, rfl⟩, fun h => absurd hop h⟩
  | write l v hop | move l k v w hop =>
    refine ⟨fun h => ?_, fun _ => by simp only [OutputSame, State.writeLoc_outLog, State.writeLoc_outCount, and_self]⟩
    simp [h] at hop
  | stay hop | raise hop | jumpToNamed hop | jumpToRes hop | halt hop =>
    refine ⟨fun h => ?_, fun _ => ⟨rfl, rfl⟩⟩
    simp [h] at hop

/-- What a PC-moving effect can leave in `pc`; HLT's is unobservable (R17). -/
theorem Act.pc_cases {s t : State} {i : Instr} (h : Act s i t) (hrun : t.halted = false) :
    t.pc = s.pc ∨ (i.opcode.toNat ∈ [0xA, 0xC, 0xD] ∧ t.pc = s.readReg (regOf i.operand)) ∨
    (i.opcode = 0xE#4 ∧ t.pc = s.readReg .res) ∨ (i.opcode = 0xF#4 ∧ t.pc = s.pc - 1) := by
  cases h with
  | stay | raise | printLast => exact .inl rfl
  | write | move => exact .inl (by simp only [State.writeLoc_pc])
  | jumpToNamed hop => exact .inr (.inl ⟨hop, wrapPc_hardware _⟩)
  | jumpToRes hop => exact .inr (.inr (.inl ⟨hop, wrapPc_hardware _⟩))
  | printMore hop => exact .inr (.inr (.inr ⟨hop, wrapPc_hardware _⟩))
  | halt => exact nomatch hrun

/-- Exactly a CPY or MOV with tags it cannot use raises, and then nothing else changes (R123). -/
theorem Act.error_cases {s t : State} {i : Instr} (h : Act s i t) (hnone : s.error = none) :
    (t.error = none ∧ ¬ i.badMode) ∨
    (i.badMode ∧ t = s.raise (.invalidAddressingMode (highTag i.operand) (lowTag i.operand))) := by
  have hgood (hop : i.opcode.toNat ∉ [4, 5]) : ¬ i.badMode := by
    cases i with
    | cpy | mov => exact (hop (opcode_mem rfl)).elim
    | _ => exact id
  cases h with
  | raise hop hmode => exact .inr ⟨hmode, rfl⟩
  | write l v _ hmode | move l k v w _ hmode => exact .inl ⟨by simp only [State.writeLoc_error, hnone], hmode⟩
  | jumpToRes hop | halt hop | printLast hop | printMore hop => exact .inl ⟨hnone, hgood (by rw [hop]; decide)⟩
  | stay hop | jumpToNamed hop =>
    refine .inl ⟨hnone, hgood fun hbad => ?_⟩
    simp only [List.mem_cons, List.not_mem_nil, or_false] at hop hbad
    omega

/-- The opcode and operand nibbles of the instructions that raise (R123). -/
theorem badMode_iff (i : Instr) :
    i.badMode ↔ (i.opcode = 4#4 ∧ i.operand.toNat ∈ [0, 3, 4, 7, 8, 11, 12, 13, 14, 15]) ∨
      (i.opcode = 5#4 ∧ i.operand.toNat ∈ [0, 1, 2, 3, 4, 7, 8, 11, 12, 13, 14, 15]) := by
  cases i with
  | cpy sm dm src dst =>
    simp only [Instr.badMode, Instr.opcode, Instr.operand, cpyBadMode]
    revert sm dm; decide
  | mov sm dm src dst =>
    simp only [Instr.badMode, Instr.opcode, Instr.operand, movBadMode]
    revert sm dm; decide
  | _ => simp [Instr.badMode, Instr.opcode]

theorem Instr.byteLength_of_badMode {i : Instr} (h : i.badMode) : i.byteLength = 2 := by
  cases i with
  | cpy | mov => rfl
  | _ => exact h.elim

/-- A run stops at the first step that reports an error (R86). -/
theorem engineRun_of_error {s t : State} {e : CoreError} (h : step s = .next t) (he : t.error = some e) (fuel : Nat) :
    engineRun (fuel + 1) s = .error e t := by
  have hstep : stepWith hardware s = .next t := h
  simp only [engineRun, hstep, he]

end Sys2Proof.Machine

namespace Sys2Proof.Proofs

open Sys2Proof.Machine

/-- Settles O15: the fetch empties the error port, and only the raise of CPY and MOV fills it, changing nothing else; so
what the step leaves is what its fetch of two bytes left. -/
theorem stepReportsAnErrorExactlyForBadModeBytes : Obligations.StepReportsAnErrorExactlyForBadModeBytes := by
  intro s t hstep
  obtain ⟨i, rest, hdecode, hact⟩ := step_act hstep
  rw [State.nextOpcode_of_decode hdecode, State.operand_of_decode hdecode, ← badMode_iff]
  obtain ⟨hnone, hgood⟩ | ⟨hbad, rfl⟩ := hact.error_cases (s.afterFetch_error _)
  case inl => exact ⟨iff_of_false (not_not_intro hnone) hgood, fun h => absurd hnone h⟩
  case inr =>
    have hhalted : (s.afterFetch i.byteLength).halted = false := (s.afterFetch_halted _).trans (running_of_step hstep)
    refine ⟨iff_of_true nofun hbad, fun _ => ⟨?pc, hhalted, s.afterFetch_readReg _, s.afterFetch_readMem _,
      ⟨s.afterFetch_outLog _, s.afterFetch_outCount _⟩, ?events, stepSafe_of_running hhalted, ?run⟩⟩
    case pc =>
      rw [State.raise_pc, State.afterFetch_pc, Instr.byteLength_of_badMode hbad]
      exact BitVec.toNat_add _ _
    case events => rw [State.raise_events, State.afterFetch_events, Instr.byteLength_of_badMode hbad]
    case run =>
      intro fuel e he
      obtain rfl := Option.some.inj he
      exact ⟨rfl, by rw [State.raise_faults, State.afterFetch_faults], engineRun_of_error hstep he fuel⟩

/-- Settles O34: the fetch writes no cell and leaves the operand forms naming what they named before it. -/
theorem onlyStoresChangeMemory : Obligations.OnlyStoresChangeMemory := by
  intro s t i rest hdecode hstep
  obtain ⟨j, rest', hdecode', hact⟩ := step_act hstep
  obtain ⟨rfl, -⟩ := Prod.mk.inj (Except.ok.inj (hdecode'.symm.trans hdecode))
  have hcells := (cellsSameBut_of_same (s.afterFetch_regs _) (s.afterFetch_mem _) []).trans hact.cellsSameBut
  rw [State.afterFetch_writtenCells, List.nil_append] at hcells
  refine ⟨hcells, fun hop => hcells.memSame (s.writtenCells_eq_reg ?_)⟩
  rwa [State.nextOpcode_of_decode hdecode] at hop

/-- Settles O31: the fetch moves `pc` by the length, and what the instruction then does to it is told by its opcode. -/
theorem onlyFetchJumpAndPrlMoveThePc : Obligations.OnlyFetchJumpAndPrlMoveThePc := by
  intro s t hstep hrun
  obtain ⟨i, rest, hdecode, hact⟩ := step_act hstep
  rw [State.nextOpcode_of_decode hdecode, State.operand_of_decode hdecode, ← Instr.byteLength_eq]
  have hpc := hact.pc_cases hrun
  simp only [State.afterFetch_pc, State.afterFetch_readReg] at hpc
  obtain hfetch | hnamed | hres | ⟨hop, hback⟩ := hpc
  · rw [hfetch, BitVec.toNat_add, BitVec.toNat_ofNat, Nat.add_mod_mod]
    exact .inl rfl
  · exact .inr (.inl hnamed)
  · exact .inr (.inr (.inl hres))
  · have hlen : i.byteLength = 1 := by rw [i.byteLength_eq, hop]; rfl
    rw [hlen] at hback
    exact .inr (.inr (.inr ⟨hop, hback.trans (BitVec.add_sub_cancel s.pc 1)⟩))

/-- Settles O32: a step that answers was of a running machine, and its fetch leaves it running. -/
theorem onlyHltHalts : Obligations.OnlyHltHalts := by
  intro s t hstep
  obtain ⟨i, rest, hdecode, hact⟩ := step_act hstep
  rw [State.nextOpcode_of_decode hdecode]
  exact hact.halted_iff ((s.afterFetch_halted _).trans (running_of_step hstep))

/-- Settles O33: the fetch emits nothing. -/
theorem onlyPrlEmitsAndTheLogOnlyGrows : Obligations.OnlyPrlEmitsAndTheLogOnlyGrows := by
  intro s t hstep
  obtain ⟨i, rest, hdecode, hact⟩ := step_act hstep
  rw [State.nextOpcode_of_decode hdecode]
  have houtput := hact.output
  simpa only [OutputSame, State.afterFetch_outLog, State.afterFetch_outCount] using houtput

end Sys2Proof.Proofs
end

section
/-! PROOF. The invariant (spec/10_state.md sections 3, 5 and 6, spec/00_scope.md section 4): each primitive of the
state keeps it, so every effect of an instruction does, every step and every host operation, under any
configuration. -/

namespace Sys2Proof.Machine

/-! ### The primitives -/

section

variable {s : State} {c : Config}

theorem State.Inv.writeLoc (h : s.Inv c) (hc : 0 < c.memSize) (l : Location) (v : Int) : (s.writeLoc l v c).Inv c where
  mem_wf := s.writeLoc_wf l v hc h.mem_wf
  pc_lt := by rw [State.writeLoc_pc]; exact h.pc_lt
  count_eq := by rw [State.writeLoc_outCount, State.writeLoc_outLog]; exact h.count_eq
  log_eq := by
    have hsilent : (writeEvent l (truncate v) c).emission? = none := by cases l <;> rfl
    rw [State.writeLoc_events, State.writeLoc_outLog, List.filterMap_append, List.filterMap_cons, hsilent,
      List.filterMap_nil, List.append_nil]
    exact h.log_eq
  error_marked := by rw [State.writeLoc_error, State.writeLoc_faults]; exact h.error_marked
  faults_legal := by rw [State.writeLoc_faults]; exact h.faults_legal

/-- A move of the PC is notified without an emission. -/
theorem filterMap_emission_pcChanged (es : List Event) (old new : Int) :
    (es ++ [Event.pcChanged old new]).filterMap Event.emission? = es.filterMap Event.emission? := by
  rw [List.filterMap_append]
  exact List.append_nil _

theorem State.Inv.jumpTo (h : s.Inv c) (target : Byte) : (s.jumpTo target c).Inv c :=
  { h with pc_lt := wrapPc_lt target c, log_eq := (filterMap_emission_pcChanged _ _ _).trans h.log_eq }

theorem State.Inv.halt (h : s.Inv c) : (s.halt c).Inv c :=
  { h with log_eq := (filterMap_emission_pcChanged _ _ _).trans h.log_eq }

theorem State.Inv.emit (h : s.Inv c) (k : OutKind) (b : Byte) : (s.emit k b).Inv c :=
  { h with
    count_eq := by rw [State.emit_outCount, State.emit_outLog, List.length_append, h.count_eq]; rfl
    log_eq := by rw [State.emit_events, State.emit_outLog, List.filterMap_append, h.log_eq]; rfl }

theorem State.Inv.raise (h : s.Inv c) {sm dm : Tag} (hbad : movBadMode sm dm) :
    (s.raise (.invalidAddressingMode sm dm)).Inv c :=
  { h with
    error_marked := by
      intro e he
      rw [State.raise_faults, List.getLast?_concat]
      exact he
    faults_legal := by
      intro e he
      obtain hold | hnew := List.mem_append.mp he
      · exact h.faults_legal e hold
      · exact List.mem_singleton.mp hnew ▸ hbad }

theorem State.Inv.clearError (h : s.Inv c) : s.clearError.Inv c := { h with error_marked := nofun }

theorem State.Inv.printOne (h : s.Inv c) (hc : 0 < c.memSize) : (s.printOne c).Inv c :=
  (h.emit .chr _).writeLoc hc (.reg .op1) _

/-! ### The fetch, the instruction and the step -/

theorem State.Inv.fetchBytes (h : s.Inv c) (n : Nat) : (s.fetchBytes n c).2.Inv c := by
  induction n generalizing s with
  | zero => exact h
  | succ n ih => exact ih (h.jumpTo (s.pc + 1))

theorem Effect.keepsInv {t : State} (heffect : Effect c s t) (hc : 0 < c.memSize) (h : s.Inv c) : t.Inv c := by
  cases heffect with
  | nothing => exact h
  | write l v => exact h.writeLoc hc l v
  | writeTwo l k v w => exact (h.writeLoc hc l v).writeLoc hc k w
  | raise sm dm hbad => exact h.raise hbad
  | jump a => exact h.jumpTo a
  | halt => exact h.halt
  | printLast => exact h.printOne hc
  | printMore => exact (h.printOne hc).jumpTo _
  | emit k b => exact h.emit k b

/-- What a step that answered did, under any configuration. -/
theorem effect_of_stepWith {t : State} (hstep : stepWith c s = .next t) :
    ∃ n, Effect c (s.clearError.fetchBytes n c).2 t := by
  have hrun : s.halted = false := by
    cases hhalted : s.halted with
    | false => rfl
    | true => exact nomatch (stepWith_of_halted c hhalted).symm.trans hstep
  obtain ⟨n, u, hu, heffect⟩ := stepWith_effect c hrun
  obtain rfl := Host.Outcome.next.inj (hu.symm.trans hstep)
  exact ⟨n, heffect⟩

theorem State.Inv.stepWith {t : State} (h : s.Inv c) (hc : 0 < c.memSize) (hstep : stepWith c s = .next t) :
    t.Inv c := by
  obtain ⟨n, heffect⟩ := effect_of_stepWith hstep
  exact heffect.keepsInv hc (h.clearError.fetchBytes n)

/-! ### Power-on and the host's operations (R140, R150) -/

theorem State.powerOn_inv {image : Memory} (himage : image.wf c = true) : (State.powerOn image).Inv c where
  mem_wf := himage
  pc_lt := Nat.two_pow_pos _
  count_eq := rfl
  log_eq := rfl
  error_marked := nofun
  faults_legal := nofun

theorem State.Inv.engineReset (h : s.Inv c) : (engineReset s c).Inv c :=
  { h.clearError with
    pc_lt := Nat.two_pow_pos _
    log_eq := by
      have hreset : (Machine.engineReset s c).events =
          s.events ++ [.pcChanged (s.currentIndex c) 0] ++ [.regsReset] := rfl
      rw [hreset, List.filterMap_append, filterMap_emission_pcChanged, h.log_eq]
      exact List.append_nil _ }

theorem State.Inv.applyHost (h : s.Inv c) (hc : 0 < c.memSize) (op : HostOp) : (applyHost s op c).Inv c := by
  cases op with
  | writeMem i v => exact h.clearError.writeLoc hc (.mem i) v
  | writeReg r v => exact h.clearError.writeLoc hc (.reg r) v
  | reset => exact h.engineReset

end

end Sys2Proof.Machine

namespace Sys2Proof.Proofs

open Sys2Proof.Machine

/-- Settles O49: every step is a fetch and one effect, whose primitives keep the invariant; of an admissible
configuration this takes only that there is some memory. -/
theorem everyConfigurationKeepsInv : Obligations.EveryConfigurationKeepsInv := by
  intro c hc
  refine ⟨fun _ => State.powerOn_inv, fun s hrun => ?answers, fun _ _ hinv => hinv.stepWith hc.mem_pos,
    fun _ op hinv => hinv.applyHost hc.mem_pos op⟩
  case answers =>
    obtain ⟨-, t, hstep, -⟩ := stepWith_effect c hrun
    exact ⟨t, hstep⟩

/-- Settles O39: this hardware's case of the rule for any configuration. -/
theorem stepKeepsInv : Obligations.StepKeepsInv := fun _ _ hinv => hinv.stepWith hardware_mem_pos

/-- Settles O40: nothing is emitted, notified or marked yet, so only the image's form is left. -/
theorem powerOnHasInv : Obligations.PowerOnHasInv := ⟨State.powerOn_inv reset_mem_wf, fun _ => State.powerOn_inv⟩

/-- Settles O41: this hardware's case of the rule for any configuration. -/
theorem hostOperationsKeepInv : Obligations.HostOperationsKeepInv :=
  fun _ op hinv => hinv.applyHost hardware_mem_pos op

end Sys2Proof.Proofs
end

section
/-! PROOF. The notifications (spec/00_scope.md section 5.2, spec/60_exceptions.md R136) and the mark of the faults
reported (spec/10_state.md R30): what each primitive of the state tells a listener and adds to the mark, and so
every step, host operation and run. -/

namespace Sys2Proof.Machine

/-! ### A change that the notifications tell -/

/-- The notifications made from `s` to `t` tell the change of what a listener keeps. -/
def Tells (s t : State) : Prop := ∃ es, t.events = s.events ++ es ∧ t.view = s.view.replay es

theorem Tells.of_same {s t : State} (hevents : t.events = s.events) (hview : t.view = s.view) : Tells s t :=
  ⟨[], hevents.trans (List.append_nil _).symm, hview⟩

theorem Tells.of_hear {s t : State} {e : Event} (hevents : t.events = s.events ++ [e])
    (hview : t.view = s.view.hear e) : Tells s t := ⟨[e], hevents, hview⟩

theorem Tells.trans {s t u : State} (hst : Tells s t) (htu : Tells t u) : Tells s u := by
  obtain ⟨es, hevents, hview⟩ := hst
  obtain ⟨es', hevents', hview'⟩ := htu
  refine ⟨es ++ es', ?_, ?_⟩
  · rw [hevents', hevents, List.append_assoc]
  · rw [hview', hview]
    exact List.foldl_append.symm

section

variable (s : State)

theorem State.currentIndex_of_running {s : State} (hrun : s.halted = false) : s.currentIndex = byteInt s.pc := by
  rw [State.currentIndex, hrun]
  rfl

theorem State.currentIndex_of_halted {s : State} (hhalted : s.halted = true) : s.currentIndex = -1 := by
  rw [State.currentIndex, hhalted]
  rfl

theorem State.writeReg_tells (r : Reg) (v : Int) : Tells s (s.writeReg r v) := .of_hear rfl rfl

/-- The notified index is the reduced one, which names the same cell. -/
theorem State.writeMem_tells (i : Nat) (v : Int) : Tells s (s.writeMem i v) := by
  refine .of_hear rfl ?_
  rw [View.hear, State.view, State.view, Memory.write_memIndex]
  rfl

theorem State.writeLoc_tells (l : Location) (v : Int) : Tells s (s.writeLoc l v) := by
  cases l with
  | reg r => exact s.writeReg_tells r v
  | mem i => exact s.writeMem_tells i v

theorem State.jumpTo_tells {s : State} (hrun : s.halted = false) (target : Byte) : Tells s (s.jumpTo target) := by
  refine .of_hear rfl ?_
  rw [State.view, State.currentIndex_of_running (s := s.jumpTo target) hrun]
  rfl

theorem State.halt_tells : Tells s s.halt := .of_hear rfl rfl

theorem State.emit_tells (k : OutKind) (b : Byte) : Tells s (s.emit k b) := .of_hear rfl rfl

theorem State.raise_tells (e : CoreError) : Tells s (s.raise e) := .of_same rfl rfl

theorem State.clearError_tells : Tells s s.clearError := .of_same rfl rfl

theorem State.printOne_tells : Tells s s.printOne := (s.emit_tells .chr _).trans (State.writeReg_tells _ .op1 _)

theorem State.resetPc_tells : Tells s s.resetPc := .of_hear rfl rfl

theorem State.resetRegs_tells : Tells s s.resetRegs := .of_hear rfl rfl

theorem State.fetchBytes_tells {s : State} (hrun : s.halted = false) (n : Nat) : Tells s (s.fetchBytes n).2 := by
  induction n generalizing s with
  | zero => exact .of_same rfl rfl
  | succ n ih => exact (State.jumpTo_tells hrun _).trans (ih (s := s.jumpTo (s.pc + 1)) hrun)

end

theorem Effect.tells {s t : State} (heffect : Effect hardware s t) (hrun : s.halted = false) : Tells s t := by
  cases heffect with
  | nothing => exact .of_same rfl rfl
  | write l v => exact s.writeLoc_tells l v
  | writeTwo l k v w => exact (s.writeLoc_tells l v).trans (State.writeLoc_tells _ k w)
  | raise sm dm => exact s.raise_tells _
  | jump a => exact State.jumpTo_tells hrun a
  | halt => exact s.halt_tells
  | printLast => exact s.printOne_tells
  | printMore => exact s.printOne_tells.trans (State.jumpTo_tells (s := s.printOne) hrun _)
  | emit k b => exact s.emit_tells k b

theorem step_tells {s t : State} (hstep : step s = .next t) : Tells s t := by
  have hrun := running_of_step hstep
  obtain ⟨n, heffect⟩ := effect_of_stepWith (c := hardware) hstep
  obtain ⟨-, hhalted, -⟩ := s.clearError.fetchBytes_frame n hardware
  exact (s.clearError_tells.trans (State.fetchBytes_tells (s := s.clearError) hrun n)).trans
    (heffect.tells (hhalted.trans hrun))

theorem applyHost_tells (s : State) (op : HostOp) : Tells s (applyHost s op) := by
  cases op with
  | writeMem i v => exact s.clearError_tells.trans (State.writeMem_tells _ i v)
  | writeReg r v => exact s.clearError_tells.trans (State.writeReg_tells _ r v)
  | reset => exact (s.clearError_tells.trans (State.resetPc_tells _)).trans (State.resetRegs_tells _)

/-! ### The mark of the faults reported -/

/-- An effect on a state with an empty error port marks the error it puts there, if any. -/
theorem Effect.faults_eq {c : Config} {s t : State} (heffect : Effect c s t) (hnone : s.error = none) :
    t.faults = s.faults ++ t.error.toList := by
  have hsilent {u : State} (hfaults : u.faults = s.faults) (herror : u.error = s.error) :
      u.faults = s.faults ++ u.error.toList := by
    rw [hfaults, herror, hnone]
    exact (List.append_nil _).symm
  cases heffect with
  | raise sm dm => rfl
  | write l v => exact hsilent (s.writeLoc_faults l v c) (s.writeLoc_error l v c)
  | writeTwo l k v w => exact hsilent (by simp only [State.writeLoc_faults]) (by simp only [State.writeLoc_error])
  | nothing | jump | halt | printLast | printMore | emit => exact hsilent rfl rfl

theorem step_faults {s t : State} (hstep : step s = .next t) : t.faults = s.faults ++ t.error.toList := by
  obtain ⟨n, heffect⟩ := effect_of_stepWith (c := hardware) hstep
  obtain ⟨-, -, -, -, -, herror, hfaults, -⟩ := s.clearError.fetchBytes_frame n hardware
  exact (heffect.faults_eq herror).trans (congrArg (· ++ _) hfaults)

theorem applyHost_faults (s : State) (op : HostOp) : (applyHost s op).faults = s.faults := by cases op <;> rfl

theorem applyHost_error (s : State) (op : HostOp) : (applyHost s op).error = none := by cases op <;> rfl

/-! ### Runs of the core -/

/-- A run of `n + 1` steps that answers is a step that answers and a run of `n`. -/
theorem exists_step_of_core_run_succ {n : Nat} {s t : State} (h : Sys2Proof.core.run (n + 1) s = .next t) :
    ∃ u, step s = .next u ∧ Sys2Proof.core.run n u = .next t := by
  cases hstep : step s with
  | next u => exact ⟨u, rfl, (core_run_succ hstep n).symm.trans h⟩
  | fault r =>
    have hcore : Sys2Proof.core.step s = .fault r := hstep
    simp only [Host.Core.run, hcore] at h
    exact nomatch h
  | refused r =>
    have hcore : Sys2Proof.core.step s = .refused r := hstep
    simp only [Host.Core.run, hcore] at h
    exact nomatch h

theorem core_run_zero {s t : State} (h : Sys2Proof.core.run 0 s = .next t) : s = t := Host.Outcome.next.inj h

theorem core_run_faults {n : Nat} {s t : State} (h : Sys2Proof.core.run n s = .next t) : s.faults <+: t.faults := by
  induction n generalizing s with
  | zero => exact core_run_zero h ▸ List.prefix_rfl
  | succ n ih =>
    obtain ⟨u, hstep, hrun⟩ := exists_step_of_core_run_succ h
    exact (step_faults hstep ▸ List.prefix_append _ _).trans (ih hrun)

/-- A mark that a step left as it was: the step reported no error. -/
theorem error_none_of_step_faults {s u : State} (hstep : step s = .next u) (h : u.faults <+: s.faults) :
    u.error = none ∧ u.faults = s.faults := by
  have hmark := step_faults hstep
  have hnone : u.error = none := by
    cases herror : u.error with
    | none => rfl
    | some e =>
      have hlength := h.length_le
      rw [hmark, herror, List.length_append] at hlength
      exact absurd hlength (Nat.not_succ_le_self _)
  rw [hnone] at hmark
  exact ⟨hnone, hmark.trans (List.append_nil _)⟩

theorem core_run_error_none {n : Nat} {s t : State} (h : Sys2Proof.core.run n s = .next t) (hmark : t.faults = s.faults)
    {j : Nat} {u : State} (hpos : 1 ≤ j) (hle : j ≤ n) (hu : Sys2Proof.core.run j s = .next u) : u.error = none := by
  induction n generalizing s j with
  | zero => omega
  | succ n ih =>
    obtain ⟨j, rfl⟩ := Nat.exists_eq_add_of_le' hpos
    obtain ⟨v, hstep, hrun⟩ := exists_step_of_core_run_succ h
    obtain ⟨v', hstep', hu⟩ := exists_step_of_core_run_succ hu
    obtain rfl := Host.Outcome.next.inj (hstep.symm.trans hstep')
    obtain ⟨hnone, hv⟩ := error_none_of_step_faults hstep (hmark ▸ core_run_faults hrun)
    cases j with
    | zero => exact core_run_zero hu ▸ hnone
    | succ j => exact ih hrun (hmark.trans hv.symm) (Nat.le_add_left 1 j) (Nat.le_of_succ_le_succ hle) hu

end Sys2Proof.Machine

namespace Sys2Proof.Proofs

open Sys2Proof.Machine

/-- Settles O42: a step and a host operation are each a chain of primitives that tell what they do. -/
theorem notificationsReplayTheChange : Obligations.NotificationsReplayTheChange :=
  ⟨fun _ _ => step_tells, applyHost_tells⟩

/-- Settles O50: along a run the mark only grows, so a mark that ends as it began never grew. -/
theorem faultMarkOutlivesEveryStep : Obligations.FaultMarkOutlivesEveryStep :=
  ⟨fun _ _ => step_faults, fun s op => ⟨applyHost_faults s op, applyHost_error s op⟩,
    fun _ _ _ hrun => ⟨core_run_faults hrun, fun hmark _ _ => core_run_error_none hrun hmark⟩⟩

end Sys2Proof.Proofs
end

section
/-! PROOF. What a step does not read (spec/10_state.md R30, spec/20_memory.md R45, R50): a relation between states
that the primitives keep is kept by every instruction, which reads registers, memory and `pc` alone. -/

namespace Sys2Proof.Machine

/-! ### Relations that every instruction keeps -/

/-- Related states hold the same registers and memory, and the primitives keep the relation: what it takes for
instructions to keep it (`exec_respects`). -/
structure Respected (R : State → State → Prop) : Prop where
  regs_eq : ∀ {s s'}, R s s' → s'.regs = s.regs
  mem_eq : ∀ {s s'}, R s s' → s'.mem = s.mem
  writeReg : ∀ {s s'}, R s s' → ∀ r v, R (s.writeReg r v) (s'.writeReg r v)
  writeMem : ∀ {s s'}, R s s' → ∀ i v, R (s.writeMem i v) (s'.writeMem i v)
  jumpTo : ∀ {s s'}, R s s' → ∀ target, R (s.jumpTo target) (s'.jumpTo target)
  jumpBack : ∀ {s s'}, R s s' → R (s.jumpTo (s.pc - 1)) (s'.jumpTo (s'.pc - 1))
  halt : ∀ {s s'}, R s s' → R s.halt s'.halt
  emit : ∀ {s s'}, R s s' → ∀ k b, R (s.emit k b) (s'.emit k b)
  raise : ∀ {s s'}, R s s' → ∀ e, R (s.raise e) (s'.raise e)

section

variable {R : State → State → Prop} {s s' : State}

theorem Respected.readReg_eq (hR : Respected R) (h : R s s') (r : Reg) : s'.readReg r = s.readReg r :=
  State.readReg_congr (hR.regs_eq h) r

theorem Respected.readLoc_eq (hR : Respected R) (h : R s s') (l : Location) : s'.readLoc l = s.readLoc l := by
  cases l with
  | reg r => exact hR.readReg_eq h r
  | mem i => exact State.readMem_congr (hR.mem_eq h) i hardware

theorem Respected.readSource_eq (hR : Respected R) (h : R s s') (source : Source) :
    s'.readSource source = s.readSource source := by
  cases source with
  | literal v => rfl
  | location l => exact hR.readLoc_eq h l

theorem Respected.writeLoc (hR : Respected R) (h : R s s') (l : Location) (v : Int) :
    R (s.writeLoc l v) (s'.writeLoc l v) := by
  cases l with
  | reg r => exact hR.writeReg h r v
  | mem i => exact hR.writeMem h i v

theorem Respected.jumpWhen (hR : Respected R) (h : R s s') (taken : Prop) [Decidable taken] (target : Byte) :
    R (s.jumpWhen taken target) (s'.jumpWhen taken target) := by
  by_cases htaken : taken
  · rw [s.jumpWhen_of_pos target htaken, s'.jumpWhen_of_pos target htaken]
    exact hR.jumpTo h target
  · rwa [s.jumpWhen_of_neg target htaken, s'.jumpWhen_of_neg target htaken]

/-- The outcomes are next states in the relation. -/
def NextRelated (R : State → State → Prop) (o o' : Outcome) : Prop := ∃ t t', o = .next t ∧ o' = .next t' ∧ R t t'

theorem NextRelated.of_eq {o o' : Outcome} {t t' : State} (ho : o = .next t) (ho' : o' = .next t') (h : R t t') :
    NextRelated R o o' := ⟨t, t', ho, ho', h⟩

theorem Respected.exec_cpy (hR : Respected R) (h : R s s') (sm dm : Tag) (src dst : Nibble) :
    NextRelated R (exec (.cpy sm dm src dst) s) (exec (.cpy sm dm src dst) s') := by
  by_cases hmode : cpyBadMode sm dm
  · exact .of_eq (exec_cpy_of_badMode hmode src dst s) (exec_cpy_of_badMode hmode src dst s') (hR.raise h _)
  · obtain ⟨source, l, hsource, hdest⟩ := exists_operands_of_not_cpyBadMode hmode src dst
    have hexec' := exec_cpy_of_operands hsource hdest s'
    rw [hR.readSource_eq h] at hexec'
    exact .of_eq (exec_cpy_of_operands hsource hdest s) hexec' (hR.writeLoc h l _)

theorem Respected.exec_mov (hR : Respected R) (h : R s s') (sm dm : Tag) (src dst : Nibble) :
    NextRelated R (exec (.mov sm dm src dst) s) (exec (.mov sm dm src dst) s') := by
  by_cases hmode : movBadMode sm dm
  · exact .of_eq (exec_mov_of_badMode hmode src dst s) (exec_mov_of_badMode hmode src dst s') (hR.raise h _)
  · obtain ⟨k, l, hsource, hdest⟩ := exists_operands_of_not_movBadMode hmode src dst
    have hexec' := exec_mov_of_operands hsource hdest s'
    rw [hR.readLoc_eq h] at hexec'
    exact .of_eq (exec_mov_of_operands hsource hdest s) hexec' (hR.writeLoc (hR.writeLoc h l _) k 0)

/-- The emission and the increment, and then the jump back where the new OP1 is not OP2. -/
theorem Respected.exec_prl (hR : Respected R) (h : R s s') (u : Nibble) :
    NextRelated R (exec (.prl u) s) (exec (.prl u) s') := by
  have hprinted : R s.printOne s'.printOne := by
    have hemitted := hR.emit h .chr (s.uread (s.readReg .op1))
    rw [s.printOne_eq, s'.printOne_eq, hR.readReg_eq h, State.uread, State.uread, hR.readLoc_eq h]
    exact hR.writeReg hemitted .op1 _
  refine .of_eq (Machine.exec_prl u s) (Machine.exec_prl u s') ?_
  rw [hR.readReg_eq hprinted, hR.readReg_eq h]
  by_cases hmore : ¬ s.printOne.readReg .op1 = s.readReg .op2
  · rw [State.jumpWhen_of_pos _ _ hmore, State.jumpWhen_of_pos _ _ hmore]
    exact hR.jumpBack hprinted
  · rwa [State.jumpWhen_of_neg _ _ hmore, State.jumpWhen_of_neg _ _ hmore]

/-- Every instruction keeps such a relation: it is made of the primitives, on what it reads from registers and
memory. -/
theorem Respected.exec (hR : Respected R) (h : R s s') (i : Instr) : NextRelated R (exec i s) (exec i s') := by
  have hreg := hR.readReg_eq h
  have huread (a : Byte) : s'.uread a = s.uread a := hR.readLoc_eq h (resolve8 a)
  cases i with
  | nop u => exact .of_eq (exec_nop u s) (exec_nop u s') h
  | add u =>
    refine .of_eq (exec_add u s) (exec_add u s') ?_
    rw [hreg, hreg]
    exact hR.writeReg h _ _
  | sub u =>
    refine .of_eq (exec_sub u s) (exec_sub u s') ?_
    rw [hreg, hreg]
    exact hR.writeReg h _ _
  | inc r =>
    refine .of_eq (exec_inc r s) (exec_inc r s') ?_
    rw [hreg]
    exact hR.writeReg h _ _
  | cpy sm dm src dst => exact hR.exec_cpy h sm dm src dst
  | mov sm dm src dst => exact hR.exec_mov h sm dm src dst
  | ld r imm => exact .of_eq (exec_ld r imm s) (exec_ld r imm s') (hR.writeReg h _ _)
  | lda r addr =>
    refine .of_eq (exec_lda r addr s) (exec_lda r addr s') ?_
    rw [huread]
    exact hR.writeReg h _ _
  | st r addr =>
    refine .of_eq (exec_st r addr s) (exec_st r addr s') ?_
    rw [hreg]
    exact hR.writeLoc h _ _
  | sta u src ptr =>
    refine .of_eq (exec_sta u src ptr s) (exec_sta u src ptr s') ?_
    rw [hreg, hreg]
    exact hR.writeLoc h _ _
  | jmp r =>
    refine .of_eq (exec_jmp r s) (exec_jmp r s') ?_
    rw [hreg]
    exact hR.jumpTo h _
  | hlt u => exact .of_eq (exec_hlt u s) (exec_hlt u s') (hR.halt h)
  | je r =>
    refine .of_eq (exec_je r s) (exec_je r s') ?_
    rw [hreg, hreg, hreg]
    exact hR.jumpWhen h _ _
  | jne r =>
    refine .of_eq (exec_jne r s) (exec_jne r s') ?_
    rw [hreg, hreg, hreg]
    exact hR.jumpWhen h _ _
  | cjp code a b =>
    refine .of_eq (exec_cjp code a b s) (exec_cjp code a b s') ?_
    rw [hreg, hreg, hreg]
    exact hR.jumpWhen h _ _
  | prl u => exact hR.exec_prl h u

/-- Two running machines with the same bytes to fetch make related steps, if the relation holds after every fetch. -/
theorem Respected.step {t : State} (hR : Respected R) (hrun : s'.halted = s.halted)
    (hbytes : s'.bytesAtPc 2 = s.bytesAtPc 2) (hfetch : ∀ n, R (s.afterFetch n) (s'.afterFetch n))
    (hstep : step s = .next t) : ∃ t', Machine.step s' = .next t' ∧ R t t' := by
  obtain ⟨i, rest, hdecode, hexec⟩ := exists_decode_of_step hstep
  obtain ⟨u, t', hu, ht', hrelated⟩ := hR.exec (hfetch i.byteLength) i
  obtain rfl := Host.Outcome.next.inj (hu.symm.trans hexec)
  exact ⟨t', (step_of_decode (hrun.trans (running_of_step hstep)) (hbytes ▸ hdecode)).trans ht', hrelated⟩

end

/-! ### States that differ in what was emitted and reported before (R30) -/

/-- From `s` and `s'` on, `t` and `t'` have added the same to the output log, the trace and the fault mark. -/
structure SameSince (s s' t t' : State) : Prop where
  inputs : SameInputs t t'
  error_eq : t.error = t'.error
  out : ∃ out, t.outLog = s.outLog ++ out ∧ t'.outLog = s'.outLog ++ out
  new : ∃ new, t.events = s.events ++ new ∧ t'.events = s'.events ++ new
  raised : ∃ raised, t.faults = s.faults ++ raised ∧ t'.faults = s'.faults ++ raised

/-- What two lists have both been extended by, after one more entry of each. -/
theorem exists_append_concat {α : Type} {as as' xs xs' : List α} (h : ∃ new, xs = as ++ new ∧ xs' = as' ++ new)
    (x : α) : ∃ new, xs ++ [x] = as ++ new ∧ xs' ++ [x] = as' ++ new := by
  obtain ⟨new, rfl, rfl⟩ := h
  exact ⟨new ++ [x], List.append_assoc _ _ _, List.append_assoc _ _ _⟩

theorem respected_sameSince (s s' : State) : Respected (SameSince s s') where
  regs_eq := by
    rintro t t' ⟨⟨hregs, -, -, -⟩, -⟩
    exact hregs.symm
  mem_eq := by
    rintro t t' ⟨⟨-, -, -, hmem⟩, -⟩
    exact hmem.symm
  writeReg := by
    rintro t t' ⟨⟨hregs, hpc, hhalted, hmem⟩, herror, hout, hnew, hraised⟩ r v
    exact ⟨⟨congrArg (RegFile.write · r (truncate v)) hregs, hpc, hhalted, hmem⟩, herror, hout,
      exists_append_concat hnew _, hraised⟩
  writeMem := by
    rintro t t' ⟨⟨hregs, hpc, hhalted, hmem⟩, herror, hout, hnew, hraised⟩ i v
    exact ⟨⟨hregs, hpc, hhalted, congrArg (Memory.write · i (truncate v)) hmem⟩, herror, hout,
      exists_append_concat hnew _, hraised⟩
  jumpTo := by
    rintro t t' ⟨⟨hregs, hpc, hhalted, hmem⟩, herror, hout, hnew, hraised⟩ target
    refine ⟨⟨hregs, rfl, hhalted, hmem⟩, herror, hout, ?_, hraised⟩
    rw [State.jumpTo_events, State.jumpTo_events, hpc]
    exact exists_append_concat hnew _
  jumpBack := by
    rintro t t' ⟨⟨hregs, hpc, hhalted, hmem⟩, herror, hout, hnew, hraised⟩
    rw [hpc]
    refine ⟨⟨hregs, rfl, hhalted, hmem⟩, herror, hout, ?_, hraised⟩
    rw [State.jumpTo_events, State.jumpTo_events, hpc]
    exact exists_append_concat hnew _
  halt := by
    rintro t t' ⟨⟨hregs, hpc, hhalted, hmem⟩, herror, hout, hnew, hraised⟩
    refine ⟨⟨hregs, hpc, rfl, hmem⟩, herror, hout, ?_, hraised⟩
    rw [State.halt_events, State.halt_events, hpc]
    exact exists_append_concat hnew _
  emit := by
    rintro t t' ⟨hinputs, herror, hout, hnew, hraised⟩ k b
    exact ⟨hinputs, herror, exists_append_concat hout _, exists_append_concat hnew _, hraised⟩
  raise := by
    rintro t t' ⟨hinputs, herror, hout, hnew, hraised⟩ e
    exact ⟨hinputs, rfl, hout, hnew, exists_append_concat hraised _⟩

theorem sameSince_afterFetch {s s' : State} (h : SameInputs s s') (n : Nat) :
    SameSince s s' (s.afterFetch n) (s'.afterFetch n) := by
  obtain ⟨hregs, hpc, hhalted, hmem⟩ := h
  rw [s.afterFetch_eq, s'.afterFetch_eq, ← hpc]
  exact ⟨⟨hregs, rfl, hhalted, hmem⟩, rfl, ⟨[], (List.append_nil _).symm, (List.append_nil _).symm⟩, ⟨_, rfl, rfl⟩,
    ⟨[], (List.append_nil _).symm, (List.append_nil _).symm⟩⟩

/-! ### States whose `pc` is the same or 128 apart (R50) -/

/-- The same state but for the trace and a `pc` that may be 128 away. -/
structure MirrorPc (t t' : State) : Prop where
  regs_eq : t'.regs = t.regs
  mem_eq : t'.mem = t.mem
  halted_eq : t'.halted = t.halted
  outLog_eq : t'.outLog = t.outLog
  outCount_eq : t'.outCount = t.outCount
  error_eq : t'.error = t.error
  faults_eq : t'.faults = t.faults
  pc_cases : t'.pc = t.pc ∨ t'.pc = t.pc + 128

theorem respected_mirrorPc : Respected MirrorPc where
  regs_eq h := h.regs_eq
  mem_eq h := h.mem_eq
  writeReg h r v := { h with regs_eq := congrArg (RegFile.write · r (truncate v)) h.regs_eq }
  writeMem h i v := { h with mem_eq := congrArg (Memory.write · i (truncate v)) h.mem_eq }
  jumpTo h target := { h with pc_cases := .inl rfl }
  jumpBack {t t'} h := { h with
    pc_cases := by
      rw [State.jumpTo_pc, State.jumpTo_pc, wrapPc_hardware, wrapPc_hardware]
      obtain hsame | hmirror := h.pc_cases
      · exact .inl (congrArg (· - 1) hsame)
      · exact .inr (by rw [hmirror]; bv_omega) }
  halt h := { h with halted_eq := rfl }
  emit h k b := { h with
    outLog_eq := congrArg (· ++ _) h.outLog_eq
    outCount_eq := congrArg (· + 1) h.outCount_eq }
  raise h e := { h with error_eq := rfl, faults_eq := congrArg (· ++ _) h.faults_eq }

theorem mirrorPc_afterFetch (s : State) (n : Nat) :
    MirrorPc (s.afterFetch n) ({ s with pc := s.pc + 128 }.afterFetch n) := by
  rw [State.afterFetch_eq, State.afterFetch_eq]
  exact ⟨rfl, rfl, rfl, rfl, rfl, rfl, rfl, .inr (add_right_comm s.pc 128 _)⟩

/-- Indices 128 apart name the same cell (R37). -/
theorem State.readMem_add_128 (s : State) (a : Byte) : s.readMem (a + 128).toNat = s.readMem a.toNat := by
  have hcell : (a + 128).toNat % 128 = a.toNat % 128 := by
    rw [BitVec.toNat_add, show (128 : Byte).toNat = 128 from rfl]
    omega
  rw [← s.readMem_mod, hcell, s.readMem_mod]

theorem State.bytesFrom_add_128 (s : State) (n : Nat) (a : Byte) : s.bytesFrom n (a + 128) = s.bytesFrom n a := by
  induction n generalizing a with
  | zero => rfl
  | succ n ih => rw [State.bytesFrom, State.bytesFrom, s.readMem_add_128, add_right_comm a 128 1, ih]

end Sys2Proof.Machine

namespace Sys2Proof.Proofs

open Sys2Proof.Machine

/-- Settles O38: that the same has been added since the two states is a relation that the primitives keep. -/
theorem outputTraceAndErrorAreNeverRead : Obligations.OutputTraceAndErrorAreNeverRead := by
  intro s s' t hinputs hstep
  obtain ⟨-, hpc, hhalted, hmem⟩ := id hinputs
  have hbytes : s'.bytesAtPc 2 = s.bytesAtPc 2 := by
    rw [State.bytesAtPc, State.bytesAtPc, hpc, State.bytesFrom_congr hmem.symm]
  obtain ⟨t', hstep', hsame⟩ :=
    (respected_sameSince s s').step hhalted.symm hbytes (sameSince_afterFetch hinputs) hstep
  exact ⟨t', hstep', hsame.inputs, hsame.error_eq, hsame.out, hsame.new, hsame.raised⟩

/-- Settles O36: to be alike up to 128 in `pc` is a relation that the primitives keep. -/
theorem codeIsSeenTwiceByThePc : Obligations.CodeIsSeenTwiceByThePc := by
  intro s t hstep
  have hbytes : { s with pc := s.pc + 128 }.bytesAtPc 2 = s.bytesAtPc 2 :=
    (State.bytesFrom_congr (s := s) rfl 2 _).trans (s.bytesFrom_add_128 2 s.pc)
  obtain ⟨t', hstep', hmirror⟩ := respected_mirrorPc.step (s := s) (s' := { s with pc := s.pc + 128 }) rfl hbytes
    (mirrorPc_afterFetch s) hstep
  exact ⟨t', hstep', hmirror.regs_eq, hmirror.mem_eq, hmirror.halted_eq, hmirror.outLog_eq, hmirror.outCount_eq,
    hmirror.error_eq, hmirror.faults_eq, hmirror.pc_cases⟩

end Sys2Proof.Proofs
end

section
/-! PROOF. Memory as it is read (spec/10_state.md section 5, spec/20_memory.md R57): a stored byte is what the next
fetch of its cell reads, and canonical memories are told apart by their reads. -/

namespace Sys2Proof.Machine

/-! ### A stored byte and the next fetch (R57) -/

theorem State.bytesAtPc_one (s : State) : s.bytesAtPc 1 = [s.readLoc (.mem s.pc.toNat)] := rfl

theorem SameCell.symm {l k : Location} (h : SameCell l k) : SameCell k l := by
  cases l with
  | reg r =>
    cases k with
    | reg q => exact Eq.symm h
    | mem j => exact h
  | mem i =>
    cases k with
    | reg q => exact h
    | mem j => exact Eq.symm h

/-- The step of a state whose bytes decode to an instruction is that instruction's. -/
theorem exec_of_step {s t : State} {i : Instr} {rest : List Byte} (hstep : step s = .next t)
    (hdecode : decode (s.bytesAtPc 2) = .ok (i, rest)) : exec i (s.afterFetch i.byteLength) = .next t :=
  (step_of_decode (running_of_step hstep) hdecode).symm.trans hstep

theorem State.afterFetch_readLoc (s : State) (n : Nat) (l : Location) : (s.afterFetch n).readLoc l = s.readLoc l := by
  cases l with
  | reg r => exact s.afterFetch_readReg n r
  | mem i => exact s.afterFetch_readMem n i

theorem State.afterFetch_readSource (s : State) (n : Nat) (source : Source) :
    (s.afterFetch n).readSource source = s.readSource source := by
  cases source with
  | literal v => rfl
  | location l => exact s.afterFetch_readLoc n l

/-- A state made by a write of the cell that its `pc` names fetches the byte written. -/
theorem bytesAtPc_of_writeLoc {s t : State} {l : Location} {b : Byte} (ht : s.writeLoc l (byteInt b) = t)
    (hsame : SameCell l (.mem t.pc.toNat)) : t.bytesAtPc 1 = [b] := by
  rw [State.bytesAtPc_one]
  subst ht
  rw [s.writeLoc_readLoc_sameCell b hsame]

/-! ### The canonical form and the reads of a memory -/

/-- Below its lowest address a canonical list holds no cell. -/
theorem Memory.lookup_of_lt {size lo a : Nat} {m : Memory} (hm : cellsOk size lo m = true) (ha : a < lo) :
    m.lookup a = Config.unlistedByte := by
  induction m generalizing lo with
  | nil => rfl
  | cons x m ih =>
    obtain ⟨b, w⟩ := x
    obtain ⟨hlo, -, -, hrest⟩ := (cellsOk_cons ..).mp hm
    rw [Memory.lookup_cons, if_neg (by omega), ih hrest (by omega)]

/-- A canonical list holds no cell beyond the array. -/
theorem Memory.lookup_of_size_le {size lo a : Nat} {m : Memory} (hm : cellsOk size lo m = true) (ha : size ≤ a) :
    m.lookup a = Config.unlistedByte := by
  induction m generalizing lo with
  | nil => rfl
  | cons x m ih =>
    obtain ⟨b, w⟩ := x
    obtain ⟨-, hsize, -, hrest⟩ := (cellsOk_cons ..).mp hm
    rw [Memory.lookup_cons, if_neg (by omega), ih hrest]

theorem Memory.lookup_cons_self (a : Nat) (v : Byte) (m : Memory) : Memory.lookup ((a, v) :: m) a = v := if_pos rfl

/-- The lowest address of a canonical list holds a byte that no memory without a cell there gives. -/
theorem Memory.lookup_cons_ne {size lo a b : Nat} {v : Byte} {m n : Memory} (hm : cellsOk size lo ((a, v) :: m) = true)
    (hn : cellsOk size b n = true) (hab : a < b) : Memory.lookup ((a, v) :: m) a ≠ n.lookup a := by
  obtain ⟨-, -, hv, -⟩ := (cellsOk_cons ..).mp hm
  rw [Memory.lookup_cons_self, Memory.lookup_of_lt hn hab]
  exact hv

theorem Memory.eq_of_lookup_eq {size lo lo' : Nat} {m n : Memory} (hm : cellsOk size lo m = true)
    (hn : cellsOk size lo' n = true) (hlookup : ∀ a, m.lookup a = n.lookup a) : m = n := by
  induction m generalizing lo lo' n with
  | nil =>
    cases n with
    | nil => rfl
    | cons y n =>
      exact absurd (hlookup y.1).symm (Memory.lookup_cons_ne (b := y.1 + 1) (n := []) hn rfl (Nat.lt_succ_self _))
  | cons x m ih =>
    obtain ⟨a, v⟩ := x
    cases n with
    | nil => exact absurd (hlookup a) (Memory.lookup_cons_ne (b := a + 1) (n := []) hm rfl (Nat.lt_succ_self _))
    | cons y n =>
      obtain ⟨b, w⟩ := y
      obtain ⟨-, hasize, hv, hm'⟩ := (cellsOk_cons ..).mp hm
      obtain ⟨-, hbsize, hw, hn'⟩ := (cellsOk_cons ..).mp hn
      have hfrom {c : Nat} {u : Byte} {k : Memory} (hsize : c < size) (hu : u ≠ Config.unlistedByte)
          (hk : cellsOk size (c + 1) k = true) : cellsOk size c ((c, u) :: k) = true :=
        (cellsOk_cons ..).mpr ⟨le_rfl, hsize, hu, hk⟩
      obtain hlt | rfl | hgt := Nat.lt_trichotomy a b
      · exact absurd (hlookup a) (Memory.lookup_cons_ne hm (hfrom hbsize hw hn') hlt)
      · have hvalue : v = w := by
          rw [← Memory.lookup_cons_self a v m, hlookup a, Memory.lookup_cons_self]
        have htail (c : Nat) : Memory.lookup m c = Memory.lookup n c := by
          by_cases hc : c = a
          · rw [Memory.lookup_of_lt hm' (by omega), Memory.lookup_of_lt hn' (by omega)]
          · have hcons := hlookup c
            rwa [Memory.lookup_cons, Memory.lookup_cons, if_neg hc, if_neg hc] at hcons
        rw [hvalue, ih hm' hn' htail]
      · exact absurd (hlookup b).symm (Memory.lookup_cons_ne hn (hfrom hasize hv hm') hgt)

end Sys2Proof.Machine

namespace Sys2Proof.Proofs

open Sys2Proof.Machine

/-- Settles O37: each of the four stores writes its cell last or, where MOV's copy is meant, last but for the zeroing of
another cell; and a fetch reads the cell that `pc` names. -/
theorem storeIsSeenByTheNextFetch : Obligations.StoreIsSeenByTheNextFetch := by
  refine ⟨fun s t rest hstep => ⟨?st, ?sta, ?cpy, ?mov⟩, ?host⟩
  case st =>
    intro r addr hdecode hsame
    have hexec := exec_of_step hstep hdecode
    rw [exec_st, State.afterFetch_readReg] at hexec
    exact bytesAtPc_of_writeLoc (Host.Outcome.next.inj hexec) hsame
  case sta =>
    intro u src ptr hdecode hsame
    have hexec := exec_of_step hstep hdecode
    rw [exec_sta, State.afterFetch_readReg, State.afterFetch_readReg] at hexec
    exact bytesAtPc_of_writeLoc (Host.Outcome.next.inj hexec) hsame
  case cpy =>
    intro sm dm src dst source target hdecode hsource hdest hsame
    have hexec := exec_of_step hstep hdecode
    rw [exec_cpy_of_operands hsource hdest, State.afterFetch_readSource] at hexec
    exact bytesAtPc_of_writeLoc (Host.Outcome.next.inj hexec) hsame
  case mov =>
    intro sm dm src dst source target hdecode hsource hdest
    have hexec := exec_of_step hstep hdecode
    rw [exec_mov_of_operands hsource hdest, State.afterFetch_readLoc] at hexec
    have ht := Host.Outcome.next.inj hexec
    refine ⟨fun hsame => bytesAtPc_of_writeLoc (b := 0) ht hsame, fun hsame hother => ?_⟩
    rw [State.bytesAtPc_one]
    subst ht
    rw [State.writeLoc_readLoc_other _ 0 (fun h => hother h.symm), State.writeLoc_readLoc_sameCell _ _ hsame]
  case host =>
    intro s i v hcell
    refine ⟨truncate v, ?_, truncate_toNat v⟩
    have hread : (s.clearError.writeMem i v).readMem s.pc.toNat = truncate v := by
      rw [State.writeMem_readMem, if_pos hcell.symm]
    exact congrArg (fun b => [b]) hread

/-- Settles O22: a read below 128 is a lookup, and beyond the array no canonical memory holds anything. -/
theorem canonicalMemoryIsDeterminedByItsReads : Obligations.CanonicalMemoryIsDeterminedByItsReads := by
  intro m n hm hn hreads
  refine Memory.eq_of_lookup_eq hm hn fun a => ?_
  by_cases ha : a < 128
  · have hread := hreads a ha
    rwa [Memory.read, Memory.read, memIndex_of_lt (c := hardware) ha] at hread
  · have hsize : hardware.memSize ≤ a := Nat.le_of_not_lt ha
    rw [Memory.lookup_of_size_le hm hsize, Memory.lookup_of_size_le hn hsize]

end Sys2Proof.Proofs
end

section
/-! PROOF. The whole print loop (spec/45_print_loop.md R110): one step of PRL, and as many of them as there are
pointers from OP1 up to OP2. -/

namespace Sys2Proof.Machine

/-! ### What is printed at a pointer -/

theorem uread_congr {s t : State} (hregs : RegsSame s t) (hmem : MemSame s t) (a : Byte) : t.uread a = s.uread a := by
  rw [State.uread_eq_ite, State.uread_eq_ite, hmem, hregs]

/-- The byte that a PRL prints when OP1 holds a pointer: the pointer may name OP1 itself. -/
def State.printedAt (s : State) (a : Byte) : Byte := (s.writeReg .op1 (byteInt a)).uread a

/-- With the pointer in OP1 it is a read through the unified map. -/
theorem State.printedAt_op1 (s : State) : s.printedAt (s.readReg .op1) = s.uread (s.readReg .op1) := by
  refine uread_congr (fun r => ?_) (s.writeReg_memSame .op1 _) _
  by_cases hr : r = .op1
  · rw [hr, State.writeReg_byte_readReg]
  · exact s.writeReg_regsSameBut .op1 _ r hr

theorem printedAt_congr {s t : State} (hregs : RegsSameBut s t .op1) (hmem : MemSame s t) (a : Byte) :
    t.printedAt a = s.printedAt a := by
  refine uread_congr (s := s.writeReg .op1 (byteInt a)) (t := t.writeReg .op1 (byteInt a)) (fun r => ?_) hmem a
  rw [State.writeReg_readReg, State.writeReg_readReg]
  split
  next => rfl
  next hr => exact hregs r hr

theorem State.printedAt_of_lt (s : State) {a : Byte} (h : a.toNat < 128) : s.printedAt a = s.readMem a.toNat :=
  State.uread_of_lt _ h

theorem State.printedAt_of_ge (s : State) {a : Byte} {r : Reg} (h : 128 ≤ a.toNat)
    (hr : r.index = (a.toNat - 128) % 7) : s.printedAt a = if r = .op1 then a else s.readReg r := by
  have hrx : rx (a.toNat - 128) = r := Reg.index_injective ((rx_index _).trans hr.symm)
  rw [State.printedAt, State.uread_of_ge _ h, hrx, State.writeReg_readReg, truncate_byteInt]

/-! ### Some iterations of the loop -/

theorem RegsSameBut.trans {s t u : State} {d : Reg} (hst : RegsSameBut s t d) (htu : RegsSameBut t u d) :
    RegsSameBut s u d := fun r hr => (htu r hr).trans (hst r hr)

theorem MemSame.trans {s t u : State} (hst : MemSame s t) (htu : MemSame t u) : MemSame s u :=
  fun a => (htu a).trans (hst a)

/-- What `n` pointers from OP1 on have printed. -/
def State.printedFrom (s : State) (n : Nat) : List Emission :=
  (List.range n).map fun k => ⟨.chr, s.printedAt (s.readReg .op1 + BitVec.ofNat 8 k)⟩

/-- What `n` steps of a PRL have done. Only where they have brought OP1 to OP2 has `pc` moved on. -/
structure PrlIterated (s t : State) (n : Nat) : Prop where
  op1_eq : t.readReg .op1 = s.readReg .op1 + BitVec.ofNat 8 n
  regs : RegsSameBut s t .op1
  mem : MemSame s t
  pc_eq : t.pc = if t.readReg .op1 = s.readReg .op2 then s.pc + 1 else s.pc
  running : t.halted = false
  error_none : t.error = none
  faults_eq : t.faults = s.faults
  outCount_eq : t.outCount = s.outCount + n
  outLog_eq : t.outLog = s.outLog ++ s.printedFrom n

theorem toNat_add_ofNat (a : Byte) (n : Nat) : (a + BitVec.ofNat 8 n).toNat = (a.toNat + n) % 256 := by
  rw [BitVec.toNat_add, BitVec.toNat_ofNat, Nat.add_mod_mod]

/-- A step of a PRL byte is the instruction after the fetch of one byte. -/
theorem step_prl {s : State} (hrun : s.halted = false) (hop : s.nextOpcode = 0xF#4) :
    step s = exec (.prl (lowNibble (s.readMem s.pc.toNat))) (s.afterFetch 1) := by
  have hstep := step_of_assemble_core (i := .prl (lowNibble (s.readMem s.pc.toNat))) hrun
  rw [hop] at hstep
  exact hstep rfl

/-- One iteration. -/
theorem exists_step_prl {s : State} (hrun : s.halted = false) (hop : s.nextOpcode = 0xF#4) :
    ∃ t, step s = .next t ∧ PrlIterated s t 1 := by
  obtain ⟨-, t, hexec, hlog, hcount, hop1, hregs, hmem, hhalted, ⟨herror, hfaults⟩, hend⟩ :=
    Proofs.prlEmitsAndStepsThePointer (lowNibble (s.readMem s.pc.toNat)) (s.afterFetch 1)
  rw [State.afterFetch_readReg] at hlog hop1 hend
  refine ⟨t, (step_prl hrun hop).trans hexec, ?op1, fun r hr => (hregs r hr).trans (s.afterFetch_readReg 1 r),
    fun a => (hmem a).trans (s.afterFetch_readMem 1 a), ?pc, hhalted.trans ((s.afterFetch_halted 1).trans hrun),
    herror.trans (s.afterFetch_error 1), hfaults.trans (s.afterFetch_faults 1),
    hcount.trans (congrArg (· + 1) (s.afterFetch_outCount 1)), ?log⟩
  case op1 => exact BitVec.eq_of_toNat_eq (hop1.trans (toNat_add_ofNat _ 1).symm)
  case pc =>
    split at hend
    next hlast =>
      obtain ⟨hpc, -⟩ := hend
      rw [if_pos hlast, hpc]
      exact s.afterFetch_pc 1
    next hmore =>
      obtain ⟨hpc, -⟩ := hend
      rw [if_neg hmore]
      rw [← pc_sub_one_toNat, State.afterFetch_pc] at hpc
      exact (BitVec.eq_of_toNat_eq hpc).trans (BitVec.add_sub_cancel s.pc 1)
  case log =>
    have hread : (s.afterFetch 1).uread (s.readReg .op1) = s.printedAt (s.readReg .op1) :=
      (uread_congr (s.afterFetch_readReg 1) (s.afterFetch_readMem 1) _).trans s.printedAt_op1.symm
    have hpointer : s.readReg .op1 + BitVec.ofNat 8 0 = s.readReg .op1 := BitVec.add_zero _
    rw [hlog, State.afterFetch_outLog, hread, State.printedFrom, List.range_one, List.map_singleton, hpointer]

/-- An iteration that did not bring OP1 to OP2, and then `n` more. -/
theorem PrlIterated.trans {s u t : State} {n : Nat} (hsu : PrlIterated s u 1) (hmore : u.readReg .op1 ≠ s.readReg .op2)
    (hut : PrlIterated u t n) : PrlIterated s t (n + 1) where
  op1_eq := by
    rw [hut.op1_eq, hsu.op1_eq]
    exact pc_add_succ _ n
  regs := hsu.regs.trans hut.regs
  mem := hsu.mem.trans hut.mem
  pc_eq := by rw [hut.pc_eq, hsu.pc_eq, if_neg hmore, hsu.regs .op2 (by decide)]
  running := hut.running
  error_none := hut.error_none
  faults_eq := hut.faults_eq.trans hsu.faults_eq
  outCount_eq := by rw [hut.outCount_eq, hsu.outCount_eq, Nat.add_assoc, Nat.add_comm 1 n]
  outLog_eq := by
    have hlater : u.printedFrom n =
        (List.range n).map fun k => ⟨.chr, s.printedAt (s.readReg .op1 + BitVec.ofNat 8 (k + 1))⟩ := by
      simp only [State.printedFrom, printedAt_congr hsu.regs hsu.mem, hsu.op1_eq]
      exact List.map_congr_left fun k _ => by rw [← pc_add_succ (s.readReg .op1) k]; rfl
    rw [hut.outLog_eq, hsu.outLog_eq, hlater, List.append_assoc]
    simp only [State.printedFrom, List.range_succ_eq_map, List.range_zero, List.map_nil, List.map_cons, List.map_map,
      List.singleton_append]
    rfl

/-- Iterations none of which but the last can bring OP1 to OP2. -/
theorem core_run_prl {n : Nat} {s : State} (hrun : s.halted = false) (hop : s.nextOpcode = 0xF#4)
    (hmore : ∀ k, 1 ≤ k → k ≤ n → s.readReg .op1 + BitVec.ofNat 8 k ≠ s.readReg .op2) :
    ∃ t, Sys2Proof.core.run (n + 1) s = .next t ∧ PrlIterated s t (n + 1) := by
  obtain ⟨u, hstep, hsu⟩ := exists_step_prl hrun hop
  induction n generalizing s u with
  | zero => exact ⟨u, core_run_succ hstep 0, hsu⟩
  | succ n ih =>
    have hne : u.readReg .op1 ≠ s.readReg .op2 := hsu.op1_eq ▸ hmore 1 le_rfl (Nat.le_add_left 1 n)
    have hpc : u.pc = s.pc := hsu.pc_eq.trans (if_neg hne)
    have hop' : u.nextOpcode = 0xF#4 := by
      rw [State.nextOpcode, hsu.mem, hpc]
      exact hop
    have hmore' (k : Nat) (hpos : 1 ≤ k) (hle : k ≤ n) : u.readReg .op1 + BitVec.ofNat 8 k ≠ u.readReg .op2 := by
      rw [hsu.op1_eq, hsu.regs .op2 (by decide)]
      exact (pc_add_succ (s.readReg .op1) k).symm ▸ hmore (k + 1) (Nat.le_add_left 1 k) (Nat.succ_le_succ hle)
    obtain ⟨v, hstep', huv⟩ := exists_step_prl hsu.running hop'
    obtain ⟨t, hcore, hut⟩ := ih hsu.running hop' hmore' v hstep' huv
    exact ⟨t, (core_run_succ hstep (n + 1)).trans hcore, hsu.trans hne hut⟩

end Sys2Proof.Machine

namespace Sys2Proof.Proofs

open Sys2Proof.Machine

/-- Settles O28: of the at most 256 pointers that follow OP1 only the last is OP2, so the loop iterates up to it; each
emission is what is printed at its pointer. -/
theorem prlLoopPrintsTheWholeRange : Obligations.PrlLoopPrintsTheWholeRange := by
  intro s n hrun hop hpos hle hend
  obtain ⟨m, rfl⟩ := Nat.exists_eq_add_of_le' hpos
  have hlast : s.readReg .op1 + BitVec.ofNat 8 (m + 1) = s.readReg .op2 :=
    BitVec.eq_of_toNat_eq ((toNat_add_ofNat _ _).trans hend)
  have hmore (k : Nat) (hk : 1 ≤ k) (hkm : k ≤ m) : s.readReg .op1 + BitVec.ofNat 8 k ≠ s.readReg .op2 := by
    intro heq
    have htoNat := congrArg BitVec.toNat heq
    rw [toNat_add_ofNat, ← hend] at htoNat
    omega
  obtain ⟨t, hcore, ht⟩ := core_run_prl hrun hop hmore
  have hop1 := ht.op1_eq.trans hlast
  refine ⟨t, hcore, hop1, ht.regs, ht.mem, ?pc, ht.running, ht.error_none, ht.faults_eq, ht.outCount_eq,
    s.printedFrom (m + 1), ht.outLog_eq, ?length, ?emissions⟩
  case pc =>
    rw [ht.pc_eq, if_pos hop1]
    exact toNat_add_ofNat s.pc 1
  case length => rw [State.printedFrom, List.length_map, List.length_range]
  case emissions =>
    rintro k a hk rfl
    have hemission : (s.printedFrom (m + 1))[k]? =
        some ⟨.chr, s.printedAt (s.readReg .op1 + BitVec.ofNat 8 k)⟩ := by
      rw [State.printedFrom, List.getElem?_map, List.getElem?_range hk]
      rfl
    rw [← toNat_add_ofNat, hemission]
    refine ⟨fun hlow => ?_, fun hhigh hself => ?_, fun r hhigh hr hindex => ?_⟩
    · rw [s.printedAt_of_lt hlow]
    · rw [s.printedAt_of_ge (r := .op1) hhigh hself.symm, if_pos rfl, BitVec.ofNat_toNat, BitVec.setWidth_eq]
    · rw [s.printedAt_of_ge hhigh hindex, if_neg hr]

end Sys2Proof.Proofs
end

section
/-! PROOF. HLT and the host's side (spec/46_nop_hlt.md R114, spec/10_state.md R31, spec/70_reset_and_hazards.md R141
to R147, spec/40_step_cycle.md R85, R86): halting, power-on, reset, running to the halt, and loading. -/

namespace Sys2Proof.Machine

/-! ### Power-on and reset (R31, R141 to R145) -/

theorem State.powerOn_readReg (image : Memory) (r : Reg) : (State.powerOn image).readReg r = 0 := by cases r <;> rfl

theorem engineReset_readReg (s : State) (r : Reg) : (engineReset s).readReg r = 0 := by cases r <;> rfl

theorem engineReset_events (s : State) :
    (engineReset s).events = s.events ++ [.pcChanged (if s.halted then -1 else byteInt s.pc) 0, .regsReset] :=
  List.append_assoc s.events [.pcChanged (if s.halted then -1 else byteInt s.pc) 0] [.regsReset]

/-! ### Running to the halt (R85, R86) -/

/-- A run that ends halted makes a step without an error, which halts or from which the run goes on. -/
theorem exists_step_of_engineRun_halted {fuel : Nat} {s t : State} (h : engineRun fuel s = .halted t) :
    ∃ n u, fuel = n + 1 ∧ step s = .next u ∧ u.error = none ∧
      ((u.halted = true ∧ u = t) ∨ (u.halted = false ∧ engineRun n u = .halted t)) := by
  cases fuel with
  | zero => exact nomatch h
  | succ n =>
    rw [engineRun] at h
    split at h
    next u hstep =>
      split at h
      next => exact nomatch h
      next hnone =>
        refine ⟨n, u, rfl, hstep, hnone, ?_⟩
        split at h
        next hhalted => exact .inl ⟨hhalted, RunResult.halted.inj h⟩
        next hrunning => exact .inr ⟨Bool.eq_false_of_not_eq_true hrunning, h⟩
    next => exact nomatch h
    next => exact nomatch h

/-- The end of a run that ends halted: `k` steps, no earlier one of which halts or reports an error. -/
structure HaltsAfter (s t : State) (k : Nat) : Prop where
  halted : t.halted = true
  error_none : t.error = none
  faults_eq : t.faults = s.faults
  pos : 1 ≤ k
  run_eq : Sys2Proof.core.run k s = .next t
  earlier : ∀ j u, 1 ≤ j → j < k → Sys2Proof.core.run j s = .next u → u.halted = false ∧ u.error = none

theorem step_faults_of_error_none {s u : State} (hstep : step s = .next u) (hnone : u.error = none) :
    u.faults = s.faults := by
  have hmark := step_faults hstep
  rw [hnone] at hmark
  exact hmark.trans (List.append_nil _)

theorem HaltsAfter.one {s t : State} (hstep : step s = .next t) (hnone : t.error = none) (hhalted : t.halted = true) :
    HaltsAfter s t 1 where
  halted := hhalted
  error_none := hnone
  faults_eq := step_faults_of_error_none hstep hnone
  pos := le_rfl
  run_eq := core_run_succ hstep 0
  earlier := fun _ _ hpos hlt => absurd hpos (Nat.not_le.mpr hlt)

theorem HaltsAfter.succ {s u t : State} {k : Nat} (hstep : step s = .next u) (hnone : u.error = none)
    (hrunning : u.halted = false) (h : HaltsAfter u t k) : HaltsAfter s t (k + 1) where
  halted := h.halted
  error_none := h.error_none
  faults_eq := h.faults_eq.trans (step_faults_of_error_none hstep hnone)
  pos := Nat.le_add_left 1 k
  run_eq := (core_run_succ hstep k).trans h.run_eq
  earlier := by
    intro j v hpos hlt hrun
    obtain ⟨j, rfl⟩ := Nat.exists_eq_add_of_le' hpos
    rw [core_run_succ hstep] at hrun
    cases j with
    | zero => exact core_run_zero hrun ▸ ⟨hrunning, hnone⟩
    | succ j => exact h.earlier (j + 1) v (Nat.le_add_left 1 j) (Nat.lt_of_succ_lt_succ hlt) hrun

theorem haltsAfter_of_engineRun {fuel : Nat} {s t : State} (h : engineRun fuel s = .halted t) :
    ∃ k, k ≤ fuel ∧ HaltsAfter s t k := by
  induction fuel generalizing s with
  | zero => exact nomatch h
  | succ n ih =>
    obtain ⟨m, u, hfuel, hstep, hnone, ⟨hhalted, rfl⟩ | ⟨hrunning, hrest⟩⟩ := exists_step_of_engineRun_halted h
    · exact ⟨1, Nat.le_add_left 1 n, .one hstep hnone hhalted⟩
    · obtain rfl := Nat.succ.inj hfuel
      obtain ⟨k, hle, hk⟩ := ih hrest
      exact ⟨k + 1, Nat.succ_le_succ hle, hk.succ hstep hnone hrunning⟩

/-! ### Loading (R146, R147) -/

/-- What loading bytes from index `i` on leaves, `d` of them dropped. -/
structure Loaded (s : State) (i : Nat) (bytes : List Byte) (t : State) (d : Nat) : Prop where
  dropped : d = bytes.length - (128 - i)
  readMem_eq : ∀ k < 128, t.readMem k = if k < i then s.readMem k else (bytes[k - i]?).getD (s.readMem k)
  regs_eq : t.regs = s.regs
  output : OutputSame s t
  pc_eq : t.pc = s.pc
  halted_eq : t.halted = s.halted
  faults_eq : t.faults = s.faults
  events : ∃ new : List Event, t.events = s.events ++ new ∧ new.length = min bytes.length (128 - i) ∧
    ∀ k b, i + k < 128 → bytes[k]? = some b → new[k]? = some (.memChanged (i + k) b)

/-- No byte, or none that fits. -/
theorem Loaded.nothing (s : State) {i : Nat} {bytes : List Byte} (h : bytes = [] ∨ 128 ≤ i) :
    Loaded s i bytes s bytes.length where
  dropped := by
    obtain rfl | hfull := h
    · exact (Nat.zero_sub _).symm
    · rw [Nat.sub_eq_zero_of_le hfull, Nat.sub_zero]
  readMem_eq := by
    intro k hk
    obtain rfl | hfull := h
    · exact (ite_self _).symm
    · rw [if_pos (by omega)]
  regs_eq := rfl
  output := ⟨rfl, rfl⟩
  pc_eq := rfl
  halted_eq := rfl
  faults_eq := rfl
  events := by
    refine ⟨[], (List.append_nil _).symm, ?_, fun k b hk hb => ?_⟩
    · obtain rfl | hfull := h
      · exact (Nat.zero_min _).symm
      · rw [Nat.sub_eq_zero_of_le hfull, Nat.min_zero, List.length_nil]
    · obtain rfl | hfull := h
      · exact nomatch hb
      · omega

/-- One byte that fits, and then the others from the next index on. -/
theorem Loaded.cons {s t : State} {i d : Nat} {b : Byte} {rest : List Byte} (hi : i < 128)
    (h : Loaded (applyHost s (.writeMem i (byteInt b))) (i + 1) rest t d) : Loaded s i (b :: rest) t d where
  dropped := by
    rw [h.dropped, List.length_cons]
    omega
  readMem_eq := by
    intro k hk
    have hwritten : (applyHost s (.writeMem i (byteInt b))).readMem k = if k = i then b else s.readMem k := by
      rw [applyHost, State.writeMem_readMem, memIndex_of_lt (c := hardware) hk, memIndex_of_lt (c := hardware) hi,
        truncate_byteInt, State.clearError_readMem]
    rw [h.readMem_eq k hk, hwritten]
    obtain hlt | rfl | hgt := Nat.lt_trichotomy k i
    · rw [if_pos (by omega), if_neg (by omega), if_pos hlt]
    · rw [if_pos (Nat.lt_succ_self k), if_pos rfl, if_neg (Nat.lt_irrefl k), Nat.sub_self]
      rfl
    · have hindex : k - i = k - (i + 1) + 1 := by omega
      rw [if_neg (by omega), if_neg (by omega), if_neg (by omega), hindex, List.getElem?_cons_succ]
  regs_eq := h.regs_eq
  output := h.output
  pc_eq := h.pc_eq
  halted_eq := h.halted_eq
  faults_eq := h.faults_eq
  events := by
    obtain ⟨new, hevents, hlength, hnew⟩ := h.events
    refine ⟨.memChanged i b :: new, ?_, ?_, fun k v hk hv => ?_⟩
    · rw [hevents, applyHost, State.writeMem_events, memIndex_of_lt (c := hardware) hi, truncate_byteInt,
        State.clearError_events, List.append_assoc, List.singleton_append]
    · rw [List.length_cons, List.length_cons, hlength]
      omega
    · cases k with
      | zero =>
        obtain rfl := Option.some.inj hv
        rfl
      | succ k =>
        have hindex : i + (k + 1) = i + 1 + k := by omega
        rw [hindex] at hk ⊢
        exact hnew k v hk hv

theorem loadBytes_loaded (s : State) (i : Nat) (bytes : List Byte) :
    Loaded s i bytes (loadBytes s i bytes).1 (loadBytes s i bytes).2 := by
  induction bytes generalizing s i with
  | nil => exact .nothing s (.inl rfl)
  | cons b rest ih =>
    rw [loadBytes, hardware_memSize]
    split
    next hi => exact .cons hi (ih _ (i + 1))
    next hfull => exact .nothing s (.inr (Nat.le_of_not_lt hfull))

/-- Once a byte is written the error port is empty, and it stays so. -/
theorem loadBytes_error_none (s : State) (i : Nat) (bytes : List Byte) (hnone : s.error = none) :
    (loadBytes s i bytes).1.error = none := by
  induction bytes generalizing s i with
  | nil => exact hnone
  | cons b rest ih =>
    rw [loadBytes]
    split
    next => exact ih _ (i + 1) rfl
    next => exact hnone

theorem loadProgram_error (s : State) (bytes : List Byte) :
    (loadProgram s bytes).error = if bytes = [] then s.error else none := by
  cases bytes with
  | nil => exact (if_pos rfl).symm
  | cons b rest => exact (loadBytes_error_none _ 1 rest rfl).trans (if_neg (List.cons_ne_nil b rest)).symm

end Sys2Proof.Machine

namespace Sys2Proof.Proofs

open Sys2Proof.Machine

/-- Settles O46: loading is one cell write for each byte while there is room, each of another cell. -/
theorem loadingFillsMemoryFromZeroAndDropsTheExcess : Obligations.LoadingFillsMemoryFromZeroAndDropsTheExcess := by
  intro s bytes
  have h := loadBytes_loaded s 0 bytes
  obtain ⟨new, hevents, hlength, hnew⟩ := h.events
  refine ⟨h.dropped, h.readMem_eq, State.readReg_congr h.regs_eq, h.output, h.pc_eq, h.halted_eq, h.faults_eq,
    loadProgram_error s bytes, new, hevents, hlength, fun k b hk hb => ?_⟩
  have hk' : 0 + k < 128 := (Nat.zero_add k).symm ▸ hk
  exact (hnew k b hk' hb).trans (by rw [Nat.zero_add])

/-- Settles O45: by the steps of the run, each of which adds to the mark the error it reports, here none. -/
theorem runIsTheStepsUpToTheHalt : Obligations.RunIsTheStepsUpToTheHalt := by
  intro fuel s t hrun
  obtain ⟨k, hle, h⟩ := haltsAfter_of_engineRun hrun
  exact ⟨h.halted, h.error_none, h.faults_eq, k, h.pos, hle, h.run_eq, h.earlier⟩

/-- Settles O29: HLT sets the halted flag and notifies it; a halted machine is refused. -/
theorem hltHaltsTheMachine : Obligations.HltHaltsTheMachine := by
  intro u s
  have hdecode : decode [BitVec.ofNat 8 (0xB0 + u.toNat)] = .ok (.hlt u, []) :=
    decode_ofNat_cons (op := 0xB#4) le_rfl rfl
  exact ⟨hdecode, _, exec_hlt u s, rfl, State.currentIndex_of_halted rfl, fun _ => rfl, fun _ => rfl, ⟨rfl, rfl⟩,
    ⟨rfl, rfl⟩, rfl, step_of_halted rfl⟩

/-- Settles O43: the fields of the power-on state; a memory that lists no cell reads 0. -/
theorem powerOnState : Obligations.PowerOnState :=
  ⟨fun image => ⟨State.powerOn_readReg image, rfl, rfl, rfl, rfl, rfl, rfl, rfl, rfl⟩, rfl, fun _ => rfl⟩

/-- Settles O44: `reset()` leaves the machine running, and a running machine steps. -/
theorem engineResetRestartsAndKeepsMemory : Obligations.EngineResetRestartsAndKeepsMemory := fun s =>
  ⟨rfl, rfl, engineReset_readReg s, fun _ => rfl, ⟨rfl, rfl⟩, engineReset_events s, rfl, rfl, rfl,
    stepSafe_of_running rfl⟩

end Sys2Proof.Proofs
end
